-- ==== Sys2Proof/Word.lean ====
section
/-! DEFINITION. The word types of the machine (00_scope.md R3, 30_encoding.md R61). All of them are
unsigned bit vectors; the hardware has no signed quantity (00_scope.md R4). -/

namespace Sys2Proof

/-- A byte of memory, a general register, a timer, an immediate `NN` (R3 `XLEN`). -/
abbrev Byte := BitVec 8

/-- An instruction word, the index register, the program counter, a stack entry, the key mask. -/
abbrev Word := BitVec 16

/-- A register index, the field `X` or `Y` (R61): every value 0 to 15 is legal (R72). -/
abbrev RegIdx := BitVec 4

/-- The field `N`: a sprite height, a sub-opcode, or ignored bits (R61). -/
abbrev Nibble := BitVec 4

/-- The field `NNN`: a 12-bit address 0 to 4095 (R61). -/
abbrev Addr12 := BitVec 12

end Sys2Proof
end

