-- ==== Sys2Proof/Machine/Params.lean ====
section
/-! DEFINITION. The parameters of 00_scope.md R3: the fixed ones, and the OPEN ones that instructions or
`new` take as an argument, each with the default the spec recommends. The OPEN ones without a default are
free constants, in Config.lean. -/

namespace Sys2Proof.Machine

/-- `MEM_SIZE` (20_memory.md R40). -/
def memSize : Nat := 4096
/-- `PROGRAM_BASE` (20_memory.md R41). -/
def programBase : Nat := 512
/-- `PROGRAM_MAX` (49_frame_driver.md R198). -/
def programMax : Nat := 3584
/-- `FRAME_BUDGET` (49_frame_driver.md R191). -/
def frameBudget : Nat := 16666
/-- Bytes of one glyph (20_memory.md R41). -/
def glyphSize : Nat := 5

/-! ## The OPEN parameters that instructions read (log 40) -/

/-- The two readings of the shifts (43_alu.md R136): which register they read. -/
inductive ShiftSource where
  /-- The register of the field `X`. -/
  | x
  /-- The register of the field `Y`. -/
  | y
  deriving DecidableEq, Repr

/-- The arguments of the model that its instructions read (00_scope.md R3). A machine is made with them and
no step changes them. -/
structure Params where
  /-- `STACK_DEPTH` (10_state.md R18, D5), a natural number of at least 1. -/
  stackDepth  : Nat
  /-- `SHIFT_SOURCE` (43_alu.md R136, R138, D8). -/
  shiftSource : ShiftSource
  deriving DecidableEq, Repr

/-- The defaults the spec recommends: depth 16 (D5, log 7), source `X` (D8, log 8). -/
def Params.default : Params where
  stackDepth  := 16
  shiftSource := .x

/-! ## `FONT` (20_memory.md R42) -/

/-- The default the spec recommends for `FONT` (R42, D14, log 6): digits 0 to 7. -/
def fontLow : List Byte :=
  [0xF0#8, 0x90#8, 0x90#8, 0x90#8, 0xF0#8] ++ [0x20#8, 0x60#8, 0x20#8, 0x20#8, 0x70#8] ++
  [0xF0#8, 0x10#8, 0xF0#8, 0x80#8, 0xF0#8] ++ [0xF0#8, 0x10#8, 0xF0#8, 0x10#8, 0xF0#8] ++
  [0x90#8, 0x90#8, 0xF0#8, 0x10#8, 0x10#8] ++ [0xF0#8, 0x80#8, 0xF0#8, 0x10#8, 0xF0#8] ++
  [0xF0#8, 0x80#8, 0xF0#8, 0x90#8, 0xF0#8] ++ [0xF0#8, 0x10#8, 0x20#8, 0x40#8, 0x40#8]

/-- The same, digits 8 to F. -/
def fontHigh : List Byte :=
  [0xF0#8, 0x90#8, 0xF0#8, 0x90#8, 0xF0#8] ++ [0xF0#8, 0x90#8, 0xF0#8, 0x10#8, 0xF0#8] ++
  [0xF0#8, 0x90#8, 0xF0#8, 0x90#8, 0x90#8] ++ [0xE0#8, 0x90#8, 0xE0#8, 0x90#8, 0xE0#8] ++
  [0xF0#8, 0x80#8, 0x80#8, 0x80#8, 0xF0#8] ++ [0xE0#8, 0x90#8, 0x90#8, 0x90#8, 0xE0#8] ++
  [0xF0#8, 0x80#8, 0xF0#8, 0x80#8, 0xF0#8] ++ [0xF0#8, 0x80#8, 0xF0#8, 0x80#8, 0x80#8]

/-- The 80 bytes of the default font. -/
def defaultFontBytes : List Byte := fontLow ++ fontHigh

/-- The default of `FONT`, as the argument that `newMachine` takes. -/
def defaultFont : Vector Byte 80 := ⟨defaultFontBytes.toArray, rfl⟩

end Sys2Proof.Machine
end

