-- ==== Sys2Proof/Machine/State.lean ====
section
/-! DEFINITION. The state of the machine (10_state.md R10, R24), the faults (60_exceptions.md R200,
R208), the state after reset (10_state.md R27). -/

namespace Sys2Proof.Machine

/-- Memory `M` (20_memory.md R40) as the list of the bytes that differ from their reset contents:
addresses strictly rising, each below 4096 (`Memory.wf` in Machine/Memory.lean). -/
abbrev Memory := List Host.Cell

/-- The seven fault conditions (60_exceptions.md R200), a closed enumeration of names with the values
the spec records (R208). A raised fault is recorded in `State.fault` (R212), and every later step of the
halted machine answers it. -/
inductive Fault where
  /-- R201. Answered by `loadProgram` for a program over 3584 bytes, by no instruction. Safe: the spec's own. -/
  | capacityError
  /-- R202. Raised by the step for an undecodable word and by SYS; carries the raw word. Safe: where the
  hardware gives a word of group 0x0 a meaning (D1, D3), the model stops. -/
  | invalidOpcode (w : Word)
  /-- R203. Raised by the check before the fetch when `pc ≥ 4095`; carries `pc`. Safe (D17). -/
  | outOfBounds (pc : Word)
  /-- R204. Raised by RET on an empty stack. Safe: the source's own. -/
  | stackUnderflow
  /-- R205. Raised by CALL on a full stack. Safe if the hardware's stack is at least as deep (D5). -/
  | stackOverflow
  /-- R206. Raised by LD B, LD [I], LD Vx,[I] and DRW; carries the first data address above 4095. Safe (D6). -/
  | memoryOutOfRange (addr : Nat)
  /-- R207. Raised by SKP and SKNP for a key number above 15; carries the value. Safe (D13). -/
  | keyIndexOutOfRange (v : Byte)
  deriving DecidableEq, Repr

/-- Why a step could be refused. -/
inductive Refusal where
  /-- An instruction without a meaning, rejected by name in `exec`'s arm: every instruction has one, so
  nobody answers this. Safe. -/
  | notModelled (mnemonic : String)
  deriving DecidableEq, Repr

/-- The machine: the nine items of 10_state.md R10, the frame budget and the fault status of R24, and two
counters of the model's own that index the free inputs (log 3, log 4), and the parameters the machine was
made with (log 40). -/
structure State where
  /-- `M`, R23. -/
  mem    : Memory
  /-- `x[0]` to `x[15]`, R11, R12. -/
  regs   : Vector Byte 16
  /-- `I`, R13. -/
  i      : Word
  /-- `pc`, R14. -/
  pc     : Word
  /-- `S`, oldest entry first, R18. -/
  stack  : List Word
  /-- `DT`, R19. -/
  dt     : Byte
  /-- `ST`, R20. -/
  st     : Byte
  /-- `FB[0]` to `FB[255]`, R21. -/
  fb     : Vector Byte 256
  /-- `KEYS`, R22. -/
  keys   : Word
  /-- The remaining frame budget, R24 item 1; not positive means that the frame is over. -/
  budget : Int
  /-- The fault status, R24 item 3. -/
  fault  : Option Fault
  /-- The model's own: how many frames have started; the next one reads `Config.hostKeys` there. -/
  frames : Nat
  /-- The model's own: how many random bytes were drawn; the next draw reads `Config.rand8` there. -/
  draws  : Nat
  /-- The OPEN parameters of R3 that instructions read: fixed for the machine, no step changes them. -/
  params : Params
  deriving DecidableEq, Repr

/-- The state `new()` returns (10_state.md R27, 49_frame_driver.md R197): font resident, all else zero,
`pc` = 512, every OPEN parameter at its default. Memory lists nothing: an unlisted byte reads as its reset contents. `budget` 0 is the
model's choice, so that the first step starts the first frame (log 2); the two counters start at 0 (log 38). -/
def State.reset : State where
  mem    := []
  regs   := Vector.replicate 16 0#8
  i      := 0#16
  pc     := 0x200#16
  stack  := []
  dt     := 0#8
  st     := 0#8
  fb     := Vector.replicate 256 0#8
  keys   := 0#16
  budget := 0
  fault  := none
  frames := 0
  draws  := 0
  params := Params.default

end Sys2Proof.Machine
end

