-- ==== Sys2Proof/Machine/Memory.lean ====
section
/-! DEFINITION. The memory array `M` (20_memory.md R40 to R43): what an address reads as, one byte read
and one byte written on the canonical list, and the canonical form. -/

namespace Sys2Proof.Machine

/-- What an address that nothing has written reads as: its contents in `State.reset`, the default font at
0 to 79 and zero elsewhere (10_state.md R27, 20_memory.md R41, log 33). A machine made with another font
lists the bytes that differ. -/
def unlistedByte (a : Nat) : Byte := defaultFontBytes.getD a 0#8

/-- `M[a]`. -/
def Memory.read : Memory → Nat → Byte
  | [], a => unlistedByte a
  | (b, v) :: m, a => if a = b then v else Memory.read m a

/-- The entry for a byte: none when the byte is what the address reads as unlisted. -/
def cellFor (a : Nat) (v : Byte) : Memory := if v = unlistedByte a then [] else [(a, v)]

/-- `M[a] <- v`, keeping the list in its canonical form. -/
def Memory.write : Memory → Nat → Byte → Memory
  | [], a, v => cellFor a v
  | (b, u) :: m, a, v =>
    if a < b then cellFor a v ++ (b, u) :: m
    else if a = b then cellFor a v ++ m
    else (b, u) :: Memory.write m a v

/-- The bytes of a list to address `a` on, in ascending order. -/
def Memory.load (m : Memory) (a : Nat) : List Byte → Memory
  | [] => m
  | b :: bs => Memory.load (m.write a b) (a + 1) bs

/-- The canonical form above a lower bound: addresses strictly rising from `lo`, each of them below 4096,
no entry equal to what the address reads as unlisted. -/
def Memory.wfFrom : Nat → Memory → Bool
  | _, [] => true
  | lo, (b, v) :: m =>
    decide (lo ≤ b) && decide (b < memSize) && decide (v ≠ unlistedByte b) && Memory.wfFrom (b + 1) m

/-- The canonical form. -/
def Memory.wf (m : Memory) : Bool := Memory.wfFrom 0 m

end Sys2Proof.Machine
end

