-- ==== Sys2Proof/Machine/Ops.lean ====
section
/-! DEFINITION. The named operations over the state: registers, the call stack, memory accesses with
their range check, the cost of an instruction charged to the frame, and taking a fault. -/

namespace Sys2Proof.Machine

/-- What an instruction answers. -/
abbrev Result := Host.Outcome State Fault Refusal

/-! ## Registers (10_state.md R11 to R14) -/

/-- `x[k]`. -/
def State.reg (s : State) (k : RegIdx) : Byte := s.regs[k.toNat]'k.isLt

/-- `x[k] <- v`. -/
def State.setReg (s : State) (k : RegIdx) (v : Byte) : State :=
  { s with regs := s.regs.set k.toNat v k.isLt }

/-- `FLAG_REG`, register 15 (10_state.md R12). -/
def flagReg : RegIdx := 15#4

/-- A result to `x[k]`, then a flag to `x[15]`: the flag is written last and is what remains when `k` is
15 (43_alu.md R139 item 6, D9). -/
def State.setResultFlag (s : State) (k : RegIdx) (v flag : Byte) : State :=
  (s.setReg k v).setReg flagReg flag

/-- `I <- v`. -/
def State.setI (s : State) (v : Word) : State := { s with i := v }

/-- `pc <- v`. -/
def State.setPc (s : State) (v : Word) : State := { s with pc := v }

/-- The cost of an instruction is taken from the remaining budget (49_frame_driver.md R190, R191). -/
def State.charge (s : State) (cost : Nat) : State := { s with budget := s.budget - cost }

/-! ## Faults (60_exceptions.md R210 to R212) -/

/-- Taking a fault: it is recorded, the frame's remaining budget is discarded, and nothing else changes:
there is no vector, no saved pc, no mode and no return (R210, R212). The step answers this state; every
later step of the halted machine answers the fault. -/
def raise (f : Fault) (s : State) : Result := .next { s with fault := some f, budget := 0 }

/-! ## The call stack (10_state.md R18) -/

/-- `push(v)`. -/
def State.push (s : State) (v : Word) : Except Fault State :=
  if s.stack.length < s.params.stackDepth then .ok { s with stack := s.stack ++ [v] } else .error .stackOverflow

/-- `pop()`: the value, and the state without that entry. -/
def State.pop (s : State) : Except Fault (Word × State) :=
  match s.stack.getLast? with
  | some v => .ok (v, { s with stack := s.stack.dropLast })
  | none => .error .stackUnderflow

/-! ## Memory accesses (20_memory.md R43, R46) -/

/-- `MemRead(addr, 1)`: the address is a natural number, checked and never wrapped. -/
def State.memRead (s : State) (a : Nat) : Except Fault Byte :=
  if a < memSize then .ok (s.mem.read a) else .error (.memoryOutOfRange a)

/-- `MemWrite(addr, 1, v)`. -/
def State.memWrite (s : State) (a : Nat) (v : Byte) : Except Fault State :=
  if a < memSize then .ok { s with mem := s.mem.write a v } else .error (.memoryOutOfRange a)

/-- `n` bytes from address `a` on, in ascending order (R46). -/
def State.readBytes (s : State) : Nat → Nat → Except Fault (List Byte)
  | _, 0 => .ok []
  | a, n + 1 =>
    match s.memRead a with
    | .error f => .error f
    | .ok b =>
      match s.readBytes (a + 1) n with
      | .error f => .error f
      | .ok bs => .ok (b :: bs)

/-- The bytes to address `a` on, in ascending order (R46). -/
def State.writeBytes (s : State) (a : Nat) : List Byte → Except Fault State
  | [] => .ok s
  | b :: bs =>
    match s.memWrite a b with
    | .error f => .error f
    | .ok s' => s'.writeBytes (a + 1) bs

/-! ## Blocks of registers (44_index_memory.md R144, R145) -/

/-- `x[0]` to `x[k]`, in order. -/
def State.regsUpTo (s : State) (k : RegIdx) : List Byte := s.regs.toList.take (k.toNat + 1)

/-- Write the bytes to registers `k`, `k + 1`, … in order. -/
def fillRegs (regs : Vector Byte 16) (k : Nat) : List Byte → Vector Byte 16
  | [] => regs
  | b :: bs => fillRegs (regs.setIfInBounds k b) (k + 1) bs

end Sys2Proof.Machine
end

