-- ==== Sys2Proof/Machine/Flags.lean ====
section
/-! DEFINITION. Every value written to the flag register as a side effect (10_state.md R12): the byte 0
or 1. -/

namespace Sys2Proof.Machine

/-- A flag as the 8-bit value 0 or 1. -/
def flagByte (b : Bool) : Byte := if b then 1#8 else 0#8

/-- ADD Vx, Vy: 1 when the unsigned sum exceeds 255 (43_alu.md R134). -/
def carryFlag (a b : Byte) : Byte := flagByte (decide (a.toNat + b.toNat > 255))

/-- A subtraction `a − b`: 1 when no borrow occurred, that is `a ≥ b` (43_alu.md R135, R137). -/
def noBorrowFlag (a b : Byte) : Byte := flagByte (decide (a.toNat ≥ b.toNat))

/-- SHR: the bit shifted out, bit 0 of the operand (43_alu.md R136). -/
def lowBitFlag (v : Byte) : Byte := flagByte (v.getLsbD 0)

/-- SHL: bit 7 of the operand, as 0 or 1 (43_alu.md R138). -/
def highBitFlag (v : Byte) : Byte := flagByte (v.getLsbD 7)

end Sys2Proof.Machine
end

