-- ==== Sys2Proof/Syntax.lean ====
section
/-! DEFINITION. The instructions: one constructor for each row of spec/opcode_table.json
(30_encoding.md R64, R73, R75). -/

namespace Sys2Proof

/-- One instruction with its decoded fields. `seVxVy` and `sneVxVy` keep the field `N`, which decoding
ignores (R69) and no meaning reads, so that no bit of a word is lost. `shr` and `shl` keep `Y`, which is
read only when `SHIFT_SOURCE` is `Y` (R136). -/
inductive Instr where
  /-- `00E0` CLS, R160. -/
  | cls
  /-- `00EE` RET, R102. -/
  | ret
  /-- `1NNN` JP nnn, R100. -/
  | jp (nnn : Addr12)
  /-- `2NNN` CALL nnn, R101. -/
  | call (nnn : Addr12)
  /-- `3XNN` SE Vx, nn, R110. -/
  | seVxNn (x : RegIdx) (nn : Byte)
  /-- `4XNN` SNE Vx, nn, R111. -/
  | sneVxNn (x : RegIdx) (nn : Byte)
  /-- `5XYN` SE Vx, Vy, R112; `n` is ignored (R69). -/
  | seVxVy (x y : RegIdx) (n : Nibble)
  /-- `6XNN` LD Vx, nn, R120. -/
  | ldVxNn (x : RegIdx) (nn : Byte)
  /-- `7XNN` ADD Vx, nn, R121. -/
  | addVxNn (x : RegIdx) (nn : Byte)
  /-- `8XY0` LD Vx, Vy, R130. -/
  | ldVxVy (x y : RegIdx)
  /-- `8XY1` OR Vx, Vy, R131. -/
  | or (x y : RegIdx)
  /-- `8XY2` AND Vx, Vy, R132. -/
  | and (x y : RegIdx)
  /-- `8XY3` XOR Vx, Vy, R133. -/
  | xor (x y : RegIdx)
  /-- `8XY4` ADD Vx, Vy, R134. -/
  | addVxVy (x y : RegIdx)
  /-- `8XY5` SUB Vx, Vy, R135. -/
  | sub (x y : RegIdx)
  /-- `8XY6` SHR Vx, R136. -/
  | shr (x y : RegIdx)
  /-- `8XY7` SUBN Vx, Vy, R137. -/
  | subn (x y : RegIdx)
  /-- `8XYE` SHL Vx, R138. -/
  | shl (x y : RegIdx)
  /-- `9XYN` SNE Vx, Vy, R113; `n` is ignored (R69). -/
  | sneVxVy (x y : RegIdx) (n : Nibble)
  /-- `ANNN` LD I, nnn, R140. -/
  | ldINnn (nnn : Addr12)
  /-- `BNNN` JP V0, nnn, R103. -/
  | jpV0 (nnn : Addr12)
  /-- `CXNN` RND Vx, nn, R150. -/
  | rnd (x : RegIdx) (nn : Byte)
  /-- `DXYN` DRW Vx, Vy, n, R161. -/
  | drw (x y : RegIdx) (n : Nibble)
  /-- `EX9E` SKP Vx, R114. -/
  | skp (x : RegIdx)
  /-- `EXA1` SKNP Vx, R115. -/
  | sknp (x : RegIdx)
  /-- `FX07` LD Vx, DT, R170. -/
  | ldVxDt (x : RegIdx)
  /-- `FX0A` LD Vx, K, R173. -/
  | ldVxK (x : RegIdx)
  /-- `FX15` LD DT, Vx, R171. -/
  | ldDtVx (x : RegIdx)
  /-- `FX18` LD ST, Vx, R172. -/
  | ldStVx (x : RegIdx)
  /-- `FX1E` ADD I, Vx, R141. -/
  | addIVx (x : RegIdx)
  /-- `FX29` LD F, Vx, R142. -/
  | ldFVx (x : RegIdx)
  /-- `FX33` LD B, Vx, R143. -/
  | ldBVx (x : RegIdx)
  /-- `FX55` LD [I], Vx, R144. -/
  | ldMemVx (x : RegIdx)
  /-- `FX65` LD Vx, [I], R145. -/
  | ldVxMem (x : RegIdx)
  /-- `0NNN`, every word of group 0x0 but `00E0` and `00EE`: SYS nnn, R180. -/
  | sys (nnn : Addr12)
  deriving DecidableEq, Repr

end Sys2Proof
end

