-- ==== Sys2Proof/Config.lean ====
section
/-! DEFINITION. What the spec leaves free (00_scope.md R3, the OPEN parameters without a default), as
constants without a body: a theorem about the machine holds for every value of them. The OPEN parameters
for which the spec recommends a default are arguments, in Machine/Params.lean. -/

namespace Sys2Proof

/-- `RNG` (45_random.md R150, D21): the byte of the draw with this number, free. -/
opaque Config.rand8 : Nat → Byte

/-- The key mask the host writes before the frame with this number (49_frame_driver.md R199, D27), free. -/
opaque Config.hostKeys : Nat → Word

/-- How far the `COST` of an instruction is above 1 (49_frame_driver.md R194, D15): every open cost is an
integer of at least 1 and a function of the decoded operation, its fields and the state before it. -/
opaque Config.costExcess : Instr → Machine.State → Nat

end Sys2Proof
end

