-- ==== Sys2Proof/Machine/Cost.lean ====
section
/-! DEFINITION. The cost table (49_frame_driver.md R194): the pinned entries and the open ones. -/

namespace Sys2Proof.Machine

/-- An open entry of `COST`: an integer of at least 1, otherwise free (R194, D15, log 5). -/
def openCost (i : Instr) (s : State) : Nat := Config.costExcess i s + 1

/-- SE Vx, nn and SNE Vx, nn: 64 taken, 46 not taken. -/
def immediateSkipCost (taken : Bool) : Nat := if taken then 64 else 46

/-- SE Vx, Vy and SNE Vx, Vy: 82 taken, 64 not taken. -/
def registerSkipCost (taken : Bool) : Nat := if taken then 82 else 64

/-- SKP and SKNP: 64 taken, 82 not taken. -/
def keySkipCost (taken : Bool) : Nat := if taken then 64 else 82

/-- LD Vx, K with no key held: the whole frame budget (47_timers_keywait.md R173). -/
def keyWaitCost : Nat := frameBudget

end Sys2Proof.Machine
end

