-- ==== Sys2Proof/Machine/Operands.lean ====
section
/-! DEFINITION. Every operand form of the instructions (30_encoding.md R72): addresses, immediates,
index plus offset, the shift source, the key number, the decimal digits, the sprite. -/

namespace Sys2Proof.Machine

/-- `zext_16(NNN)`: a 12-bit address used as a 16-bit one (R72). -/
def addrOperand (nnn : Addr12) : Word := nnn.setWidth 16

/-- `zext_16(v)`: a byte used as a 16-bit value. -/
def wideByte (v : Byte) : Word := v.setWidth 16

/-- `I + k` in the natural numbers, the one data addressing mode (44_index_memory.md, 20_memory.md R43). -/
def State.indexAddr (s : State) (k : Nat) : Nat := s.i.toNat + k

/-- The operand of SHR and SHL under a reading of `SHIFT_SOURCE` (43_alu.md R136). -/
def shiftOperandOf (src : ShiftSource) (s : State) (x y : RegIdx) : Byte :=
  match src with
  | .x => s.reg x
  | .y => s.reg y

/-- The operand of SHR and SHL (43_alu.md R136, R138). -/
def State.shiftOperand (s : State) (x y : RegIdx) : Byte := shiftOperandOf s.params.shiftSource s x y

/-- The key number in a register (41_conditional_skip.md R114): above 15 there is no such key. -/
def State.keyIndex (s : State) (x : RegIdx) : Except Fault Nat :=
  if (s.reg x).toNat ≤ 15 then .ok (s.reg x).toNat else .error (.keyIndexOutOfRange (s.reg x))

/-- `KEYS[k] = 1` (10_state.md R22). -/
def State.keyHeld (s : State) (k : Nat) : Bool := s.keys.getLsbD k

/-- The least key number that is held, 0 when none is (47_timers_keywait.md R173). -/
def lowestKey (keys : Word) : Nat := ((List.range 16).find? fun k => keys.getLsbD k).getD 0

/-- The hundreds, tens and ones of a byte (44_index_memory.md R143). -/
def decimalDigits (v : Byte) : List Byte :=
  [BitVec.ofNat 8 (v.toNat / 100), BitVec.ofNat 8 (v.toNat / 10 % 10), BitVec.ofNat 8 (v.toNat % 10)]

/-- The address of a hex digit's glyph, `v × 5` for every value (44_index_memory.md R142, D12). -/
def glyphAddr (v : Byte) : Word := BitVec.ofNat 16 (v.toNat * glyphSize)

/-- The `n` sprite bytes at `I` (46_display.md R161). -/
def State.sprite (s : State) (n : Nibble) : Except Fault (List Byte) := s.readBytes (s.indexAddr 0) n.toNat

end Sys2Proof.Machine
end

