-- ==== Sys2Proof/Machine/Immediate.lean ====
section
/-! DEFINITION. Immediate load and add (42_immediate.md). Neither writes the flag as a side effect. -/

namespace Sys2Proof.Machine

/-- An instruction whose one result goes to register `x`; it is `i` and costs an open entry. -/
def writeResult (i : Instr) (x : RegIdx) (v : Byte) (s : State) : Result :=
  .next ((s.setReg x v).charge (openCost i s))

/-- LD Vx, nn (R120): `x[X] <- NN`. -/
def execLdVxNn (x : RegIdx) (nn : Byte) (s : State) : Result := writeResult (.ldVxNn x nn) x nn s

/-- ADD Vx, nn (R121): `x[X] <- (x[X] + NN) mod 256`, no flag. -/
def execAddVxNn (x : RegIdx) (nn : Byte) (s : State) : Result :=
  writeResult (.addVxNn x nn) x (s.reg x + nn) s

end Sys2Proof.Machine
end

