-- ==== Sys2Proof/Machine/Alu.lean ====
section
/-! DEFINITION. The register-register group 8xy_ (43_alu.md). Both operands are read before anything is
written, and a flag is written after the result (R139). -/

namespace Sys2Proof.Machine

/-- An instruction with a result to register `x` and a flag to register 15, in that order. -/
def writeResultFlag (i : Instr) (x : RegIdx) (v flag : Byte) (s : State) : Result :=
  .next ((s.setResultFlag x v flag).charge (openCost i s))

/-- LD Vx, Vy (R130). -/
def execLdVxVy (x y : RegIdx) (s : State) : Result := writeResult (.ldVxVy x y) x (s.reg y) s

/-- OR Vx, Vy (R131). -/
def execOr (x y : RegIdx) (s : State) : Result := writeResult (.or x y) x (s.reg x ||| s.reg y) s

/-- AND Vx, Vy (R132). -/
def execAnd (x y : RegIdx) (s : State) : Result := writeResult (.and x y) x (s.reg x &&& s.reg y) s

/-- XOR Vx, Vy (R133). -/
def execXor (x y : RegIdx) (s : State) : Result := writeResult (.xor x y) x (s.reg x ^^^ s.reg y) s

/-- ADD Vx, Vy (R134): flag = carry. -/
def execAddVxVy (x y : RegIdx) (s : State) : Result :=
  writeResultFlag (.addVxVy x y) x (s.reg x + s.reg y) (carryFlag (s.reg x) (s.reg y)) s

/-- SUB Vx, Vy (R135): `x[X] − x[Y]`, flag = no borrow. -/
def execSub (x y : RegIdx) (s : State) : Result :=
  writeResultFlag (.sub x y) x (s.reg x - s.reg y) (noBorrowFlag (s.reg x) (s.reg y)) s

/-- SHR Vx (R136): logical shift right by one, flag = the bit shifted out. -/
def execShr (x y : RegIdx) (s : State) : Result :=
  writeResultFlag (.shr x y) x (s.shiftOperand x y >>> 1) (lowBitFlag (s.shiftOperand x y)) s

/-- SUBN Vx, Vy (R137): `x[Y] − x[X]`, flag = no borrow. -/
def execSubn (x y : RegIdx) (s : State) : Result :=
  writeResultFlag (.subn x y) x (s.reg y - s.reg x) (noBorrowFlag (s.reg y) (s.reg x)) s

/-- SHL Vx (R138): logical shift left by one, flag = the bit shifted out. -/
def execShl (x y : RegIdx) (s : State) : Result :=
  writeResultFlag (.shl x y) x (s.shiftOperand x y <<< 1) (highBitFlag (s.shiftOperand x y)) s

end Sys2Proof.Machine
end

