-- ==== Sys2Proof/Machine/ControlFlow.lean ====
section
/-! DEFINITION. Control flow: JP, CALL, RET, JP V0 (40_control_flow.md). Each is entered with `pc` = own
address + 2; no target is checked for range or alignment here. -/

namespace Sys2Proof.Machine

/-- JP nnn (R100): `pc <- NNN`. -/
def execJp (nnn : Addr12) (s : State) : Result :=
  .next ((s.setPc (addrOperand nnn)).charge (openCost (.jp nnn) s))

/-- CALL nnn (R101): pushes `pc`, the address after the CALL, then `pc <- NNN`; `StackOverflow` when the
stack is full, nothing pushed and `pc` as entered. -/
def execCall (nnn : Addr12) (s : State) : Result :=
  match s.push s.pc with
  | .error f => raise f s
  | .ok s' => .next ((s'.setPc (addrOperand nnn)).charge (openCost (.call nnn) s))

/-- RET (R102): `pc <- pop()`; `StackUnderflow` when the stack is empty. -/
def execRet (s : State) : Result :=
  match s.pop with
  | .error f => raise f s
  | .ok (v, s') => .next ((s'.setPc v).charge (openCost .ret s))

/-- JP V0, nnn (R103): `pc <- NNN + x[0]`, in 16 bits, not masked to 12 (D20). -/
def execJpV0 (nnn : Addr12) (s : State) : Result :=
  .next ((s.setPc (addrOperand nnn + wideByte (s.reg 0#4))).charge (openCost (.jpV0 nnn) s))

end Sys2Proof.Machine
end

