-- ==== Sys2Proof/Machine/Display.lean ====
section
/-! DEFINITION. CLS and DRW, the XOR blitter (46_display.md R160 to R162), on the framebuffer of
10_state.md R21. -/

namespace Sys2Proof.Machine

/-- The framebuffer: `FB[0]` to `FB[255]`. -/
abbrev Framebuffer := Vector Byte 256

/-- `FB[j]`. -/
def fbByte (fb : Framebuffer) (j : Nat) : Byte := fb.getD j 0#8

/-- Pixel (column `c`, row `r`): bit `7 − (c mod 8)` of `FB[r × 8 + c / 8]` (R21, D22). -/
def pixel (fb : Framebuffer) (c r : Nat) : Bool := (fbByte fb (r * 8 + c / 8)).getLsbD (7 - c % 8)

/-- `FB[j] <- FB[j] ^ b`. -/
def xorByte (fb : Framebuffer) (j : Nat) (b : Byte) : Framebuffer := fb.setIfInBounds j (fbByte fb j ^^^ b)

/-- Would that clear a set pixel? -/
def clears (fb : Framebuffer) (j : Nat) (b : Byte) : Bool := fbByte fb j &&& b != 0#8

/-- `shift`, `colL`, `colR` and `r` of R161. -/
def drawShift (vx : Byte) : Nat := vx.toNat % 8
/-- The left destination byte column. -/
def drawColL (vx : Byte) : Nat := vx.toNat / 8 % 8
/-- The right destination byte column, wrapping 7 to 0. -/
def drawColR (vx : Byte) : Nat := (drawColL vx + 1) % 8
/-- The destination pixel row of a sprite row, wrapping 31 to 0. -/
def drawRow (vy : Byte) (row : Nat) : Nat := (vy.toNat + row) % 32

/-- One sprite row `b`, row number `row` (R161): the left byte, then, when the shift is not 0, the right
byte. The framebuffer after, and whether a set pixel was cleared. -/
def drawSpriteRow (vx vy : Byte) (row : Nat) (b : Byte) (fb : Framebuffer) : Framebuffer × Bool :=
  let jL := drawRow vy row * 8 + drawColL vx
  let left := b >>> drawShift vx
  let fbL := xorByte fb jL left
  if drawShift vx = 0 then (fbL, clears fb jL left)
  else
    let jR := drawRow vy row * 8 + drawColR vx
    let right := b <<< (8 - drawShift vx)
    (xorByte fbL jR right, clears fb jL left || clears fbL jR right)

/-- The sprite's rows from number `row` on, with the collision found so far. -/
def drawSprite (vx vy : Byte) (row : Nat) : List Byte → Framebuffer → Bool → Framebuffer × Bool
  | [], fb, hit => (fb, hit)
  | b :: bs, fb, hit =>
    drawSprite vx vy (row + 1) bs (drawSpriteRow vx vy row b fb).1 (hit || (drawSpriteRow vx vy row b fb).2)

/-- CLS (R160): all pixels off; no flag. -/
def execCls (s : State) : Result :=
  .next ({ s with fb := Vector.replicate 256 0#8 }.charge (openCost .cls s))

/-- DRW Vx, Vy, n (R161): the sprite of `N` bytes at `I` is XORed onto the framebuffer at
(`x[X]`, `x[Y]`), wrapping on both axes; `x[15]` is the collision flag, written last. -/
def execDrw (x y : RegIdx) (n : Nibble) (s : State) : Result :=
  match s.sprite n with
  | .error f => raise f s
  | .ok bytes =>
    let drawn := drawSprite (s.reg x) (s.reg y) 0 bytes s.fb false
    .next (({ s with fb := drawn.1 }.setReg flagReg (flagByte drawn.2)).charge (openCost (.drw x y n) s))

end Sys2Proof.Machine
end

