-- ==== Sys2Proof/Machine/IndexMemory.lean ====
section
/-! DEFINITION. The index register and the memory transfers (44_index_memory.md). No transfer changes `I`
(D10). A transfer that would leave memory raises `MemoryOutOfRange` with none of it done
(60_exceptions.md R206, D30, log 20). -/

namespace Sys2Proof.Machine

/-- LD I, nnn (R140): `I <- NNN`. -/
def execLdINnn (nnn : Addr12) (s : State) : Result :=
  .next ((s.setI (addrOperand nnn)).charge (openCost (.ldINnn nnn) s))

/-- ADD I, Vx (R141): `I <- (I + x[X]) mod 65536`, no flag. -/
def execAddIVx (x : RegIdx) (s : State) : Result :=
  .next ((s.setI (s.i + wideByte (s.reg x))).charge (openCost (.addIVx x) s))

/-- LD F, Vx (R142): `I <- x[X] × 5`, for every value of the register (D12). -/
def execLdFVx (x : RegIdx) (s : State) : Result :=
  .next ((s.setI (glyphAddr (s.reg x))).charge (openCost (.ldFVx x) s))

/-- An instruction that stores these bytes at `I`, `I + 1`, …; it is `i` and costs an open entry. -/
def storeAtIndex (i : Instr) (bytes : List Byte) (s : State) : Result :=
  match s.writeBytes (s.indexAddr 0) bytes with
  | .error f => raise f s
  | .ok s' => .next (s'.charge (openCost i s))

/-- LD B, Vx (R143): the three decimal digits of `x[X]` to `I`, `I + 1`, `I + 2`. -/
def execLdBVx (x : RegIdx) (s : State) : Result := storeAtIndex (.ldBVx x) (decimalDigits (s.reg x)) s

/-- LD [I], Vx (R144): `x[0]` to `x[X]` to `I` … `I + X`. -/
def execLdMemVx (x : RegIdx) (s : State) : Result := storeAtIndex (.ldMemVx x) (s.regsUpTo x) s

/-- LD Vx, [I] (R145): `x[0]` to `x[X]` from `I` … `I + X`. -/
def execLdVxMem (x : RegIdx) (s : State) : Result :=
  match s.readBytes (s.indexAddr 0) (x.toNat + 1) with
  | .error f => raise f s
  | .ok bytes => .next ({ s with regs := fillRegs s.regs 0 bytes }.charge (openCost (.ldVxMem x) s))

end Sys2Proof.Machine
end

