-- ==== Sys2Proof/Machine/Random.lean ====
section
/-! DEFINITION. RND (45_random.md). -/

namespace Sys2Proof.Machine

/-- `rand8()` (R150): a fresh free byte, and the state in which the next draw is another one. -/
def State.drawByte (s : State) : Byte × State := (Config.rand8 s.draws, { s with draws := s.draws + 1 })

/-- RND Vx, nn (R150): `x[X] <- rand8() & NN`; one byte is drawn also when `NN` is 0. -/
def execRnd (x : RegIdx) (nn : Byte) (s : State) : Result :=
  .next ((s.drawByte.2.setReg x (s.drawByte.1 &&& nn)).charge (openCost (.rnd x nn) s))

end Sys2Proof.Machine
end

