-- ==== Sys2Proof/Machine/Skip.lean ====
section
/-! DEFINITION. The conditional skips (41_conditional_skip.md). A taken skip adds 2 to `pc`; only `pc` and
the budget change. -/

namespace Sys2Proof.Machine

/-- A skip whose condition is `taken`, at this cost. -/
def skipIf (taken : Bool) (cost : Nat) (s : State) : Result :=
  .next ((s.setPc (if taken then s.pc + 2#16 else s.pc)).charge cost)

/-- A skip on a key (R114, R115): taken when the key numbered by `x[X]` is held exactly as wanted;
`KeyIndexOutOfRange` when there is no such key. -/
def keySkip (x : RegIdx) (held : Bool) (s : State) : Result :=
  match s.keyIndex x with
  | .error f => raise f s
  | .ok k => skipIf (s.keyHeld k == held) (keySkipCost (s.keyHeld k == held)) s

/-- SE Vx, nn (R110). -/
def execSeVxNn (x : RegIdx) (nn : Byte) (s : State) : Result :=
  skipIf (s.reg x == nn) (immediateSkipCost (s.reg x == nn)) s

/-- SNE Vx, nn (R111). -/
def execSneVxNn (x : RegIdx) (nn : Byte) (s : State) : Result :=
  skipIf (s.reg x != nn) (immediateSkipCost (s.reg x != nn)) s

/-- SE Vx, Vy (R112); the field `N` is not read (R69). -/
def execSeVxVy (x y : RegIdx) (s : State) : Result :=
  skipIf (s.reg x == s.reg y) (registerSkipCost (s.reg x == s.reg y)) s

/-- SNE Vx, Vy (R113); the field `N` is not read (R69). -/
def execSneVxVy (x y : RegIdx) (s : State) : Result :=
  skipIf (s.reg x != s.reg y) (registerSkipCost (s.reg x != s.reg y)) s

/-- SKP Vx (R114): taken when the key is held. -/
def execSkp (x : RegIdx) (s : State) : Result := keySkip x true s

/-- SKNP Vx (R115): taken when the key is not held. -/
def execSknp (x : RegIdx) (s : State) : Result := keySkip x false s

end Sys2Proof.Machine
end

