-- ==== Sys2Proof/WellFormed.lean ====
section
/-! DEFINITION. Which terms of `Instr` are instructions. The field types already hold every range of
30_encoding.md R61 and R72; what is left is that SYS is the rest of group 0x0 (48_system.md R180). -/

namespace Sys2Proof

/-- `0NNN` with `W ≠ 0x00E0` and `W ≠ 0x00EE` (R180): those two words are CLS and RET. -/
def sysField (nnn : Addr12) : Bool := nnn != 0x0E0#12 && nnn != 0x0EE#12

/-- The check on an instruction: SYS does not take the words of CLS and RET (R65, R75, R180); every
other constructor is an instruction for every value of its fields (R72). -/
def Instr.wf : Instr → Bool
  | .sys nnn => sysField nnn
  | .cls | .ret | .jp _ | .call _ | .seVxNn _ _ | .sneVxNn _ _ | .seVxVy _ _ _ | .ldVxNn _ _
  | .addVxNn _ _ | .ldVxVy _ _ | .or _ _ | .and _ _ | .xor _ _ | .addVxVy _ _ | .sub _ _ | .shr _ _
  | .subn _ _ | .shl _ _ | .sneVxVy _ _ _ | .ldINnn _ | .jpV0 _ | .rnd _ _ | .drw _ _ _ | .skp _
  | .sknp _ | .ldVxDt _ | .ldVxK _ | .ldDtVx _ | .ldStVx _ | .addIVx _ | .ldFVx _ | .ldBVx _
  | .ldMemVx _ | .ldVxMem _ => true

end Sys2Proof
end

