-- ==== Sys2Proof/Decode.lean ====
section
/-! DEFINITION. Instruction encoding, 30_encoding.md R60 to R75: the fields of a word, the decoder,
total on every word and on every list of bytes, the encoder, and the opcode table as rows. -/

namespace Sys2Proof

/-! ## Fields (R61) -/

/-- Bits 15:12, the primary nibble `A`. -/
def fieldA (w : Word) : Nibble := w.extractLsb' 12 4
/-- Bits 11:8, `X`. -/
def fieldX (w : Word) : RegIdx := w.extractLsb' 8 4
/-- Bits 7:4, `Y`. -/
def fieldY (w : Word) : RegIdx := w.extractLsb' 4 4
/-- Bits 3:0, `N`. -/
def fieldN (w : Word) : Nibble := w.extractLsb' 0 4
/-- Bits 7:0, `NN`, op1 taken verbatim. -/
def fieldNN (w : Word) : Byte := w.extractLsb' 0 8
/-- Bits 11:0, `NNN`. -/
def fieldNNN (w : Word) : Addr12 := w.extractLsb' 0 12

/-- `W = op0 ∥ op1` (R60, 20_memory.md R44): the byte at the lower address is the high half. -/
def wordOfBytes (op0 op1 : Byte) : Word := op0 ++ op1
/-- op0 = `W[15:8]`. -/
def wordHigh (w : Word) : Byte := w.extractLsb' 8 8
/-- op1 = `W[7:0]`. -/
def wordLow (w : Word) : Byte := w.extractLsb' 0 8

/-! ## The decoder (R63 to R69) -/

/-- Group 0x0 (R65): CLS and RET match the whole word; the rest is SYS (R75, R180). -/
def decodeGroup0 (w : Word) : Option Instr :=
  if w = 0x00E0#16 then some .cls
  else if w = 0x00EE#16 then some .ret
  else some (.sys (fieldNNN w))

/-- Group 0x8 (R66): the sub-opcode is `N`. -/
def decodeGroup8 (w : Word) : Option Instr :=
  match fieldN w with
  | 0x0#4 => some (.ldVxVy (fieldX w) (fieldY w))
  | 0x1#4 => some (.or (fieldX w) (fieldY w))
  | 0x2#4 => some (.and (fieldX w) (fieldY w))
  | 0x3#4 => some (.xor (fieldX w) (fieldY w))
  | 0x4#4 => some (.addVxVy (fieldX w) (fieldY w))
  | 0x5#4 => some (.sub (fieldX w) (fieldY w))
  | 0x6#4 => some (.shr (fieldX w) (fieldY w))
  | 0x7#4 => some (.subn (fieldX w) (fieldY w))
  | 0xE#4 => some (.shl (fieldX w) (fieldY w))
  | _ => none

/-- Group 0xE (R67): the sub-opcode is all of op1. -/
def decodeGroupE (w : Word) : Option Instr :=
  match fieldNN w with
  | 0x9E#8 => some (.skp (fieldX w))
  | 0xA1#8 => some (.sknp (fieldX w))
  | _ => none

/-- Group 0xF (R68): the sub-opcode is all of op1. -/
def decodeGroupF (w : Word) : Option Instr :=
  match fieldNN w with
  | 0x07#8 => some (.ldVxDt (fieldX w))
  | 0x0A#8 => some (.ldVxK (fieldX w))
  | 0x15#8 => some (.ldDtVx (fieldX w))
  | 0x18#8 => some (.ldStVx (fieldX w))
  | 0x1E#8 => some (.addIVx (fieldX w))
  | 0x29#8 => some (.ldFVx (fieldX w))
  | 0x33#8 => some (.ldBVx (fieldX w))
  | 0x55#8 => some (.ldMemVx (fieldX w))
  | 0x65#8 => some (.ldVxMem (fieldX w))
  | _ => none

/-- `decode(W)` (R63). `none` is an invalid word of group 0x8, 0xE or 0xF (R70), for which the step
raises `InvalidOpcode(W)`; the invalid words of group 0x0 are SYS, which raises the same fault. -/
def decode (w : Word) : Option Instr :=
  match fieldA w with
  | 0x0#4 => decodeGroup0 w
  | 0x1#4 => some (.jp (fieldNNN w))
  | 0x2#4 => some (.call (fieldNNN w))
  | 0x3#4 => some (.seVxNn (fieldX w) (fieldNN w))
  | 0x4#4 => some (.sneVxNn (fieldX w) (fieldNN w))
  | 0x5#4 => some (.seVxVy (fieldX w) (fieldY w) (fieldN w))
  | 0x6#4 => some (.ldVxNn (fieldX w) (fieldNN w))
  | 0x7#4 => some (.addVxNn (fieldX w) (fieldNN w))
  | 0x8#4 => decodeGroup8 w
  | 0x9#4 => some (.sneVxVy (fieldX w) (fieldY w) (fieldN w))
  | 0xA#4 => some (.ldINnn (fieldNNN w))
  | 0xB#4 => some (.jpV0 (fieldNNN w))
  | 0xC#4 => some (.rnd (fieldX w) (fieldNN w))
  | 0xD#4 => some (.drw (fieldX w) (fieldY w) (fieldN w))
  | 0xE#4 => decodeGroupE w
  | _ => decodeGroupF w

/-- What the decoder reads from a list of bytes. -/
inductive Decoded where
  /-- The instruction and the bytes after it. -/
  | instr (i : Instr) (rest : List Byte)
  /-- The two bytes are a word that names no operation (R70). -/
  | invalid (w : Word)
  /-- Fewer than two bytes: there is no partial instruction (R60). -/
  | truncated
  deriving DecidableEq, Repr

/-- Decode the first two bytes of a list (R60, R63): total, and rejecting by name. -/
def decodeBytes : List Byte → Decoded
  | op0 :: op1 :: rest =>
    match decode (wordOfBytes op0 op1) with
    | some i => .instr i rest
    | none => .invalid (wordOfBytes op0 op1)
  | _ => .truncated

/-! ## The encoder (R62, R64 to R69) -/

/-- Format aNNN. -/
def formNNN (a : Nibble) (nnn : Addr12) : Word := a ++ nnn
/-- Format aXNN, and aXss with the sub-opcode in the place of `NN`. -/
def formXNN (a : Nibble) (x : RegIdx) (nn : Byte) : Word := a ++ x ++ nn
/-- Format aXYN. -/
def formXYN (a : Nibble) (x y : RegIdx) (n : Nibble) : Word := a ++ x ++ y ++ n

/-- The word of an instruction. -/
def encode : Instr → Word
  | .cls => 0x00E0#16
  | .ret => 0x00EE#16
  | .jp nnn => formNNN 0x1#4 nnn
  | .call nnn => formNNN 0x2#4 nnn
  | .seVxNn x nn => formXNN 0x3#4 x nn
  | .sneVxNn x nn => formXNN 0x4#4 x nn
  | .seVxVy x y n => formXYN 0x5#4 x y n
  | .ldVxNn x nn => formXNN 0x6#4 x nn
  | .addVxNn x nn => formXNN 0x7#4 x nn
  | .ldVxVy x y => formXYN 0x8#4 x y 0x0#4
  | .or x y => formXYN 0x8#4 x y 0x1#4
  | .and x y => formXYN 0x8#4 x y 0x2#4
  | .xor x y => formXYN 0x8#4 x y 0x3#4
  | .addVxVy x y => formXYN 0x8#4 x y 0x4#4
  | .sub x y => formXYN 0x8#4 x y 0x5#4
  | .shr x y => formXYN 0x8#4 x y 0x6#4
  | .subn x y => formXYN 0x8#4 x y 0x7#4
  | .shl x y => formXYN 0x8#4 x y 0xE#4
  | .sneVxVy x y n => formXYN 0x9#4 x y n
  | .ldINnn nnn => formNNN 0xA#4 nnn
  | .jpV0 nnn => formNNN 0xB#4 nnn
  | .rnd x nn => formXNN 0xC#4 x nn
  | .drw x y n => formXYN 0xD#4 x y n
  | .skp x => formXNN 0xE#4 x 0x9E#8
  | .sknp x => formXNN 0xE#4 x 0xA1#8
  | .ldVxDt x => formXNN 0xF#4 x 0x07#8
  | .ldVxK x => formXNN 0xF#4 x 0x0A#8
  | .ldDtVx x => formXNN 0xF#4 x 0x15#8
  | .ldStVx x => formXNN 0xF#4 x 0x18#8
  | .addIVx x => formXNN 0xF#4 x 0x1E#8
  | .ldFVx x => formXNN 0xF#4 x 0x29#8
  | .ldBVx x => formXNN 0xF#4 x 0x33#8
  | .ldMemVx x => formXNN 0xF#4 x 0x55#8
  | .ldVxMem x => formXNN 0xF#4 x 0x65#8
  | .sys nnn => formNNN 0x0#4 nnn

/-- The two bytes of an instruction in memory order (R60). -/
def encodeBytes (i : Instr) : List Byte := [wordHigh (encode i), wordLow (encode i)]

/-! ## The opcode table as rows (R75) -/

/-- One row of opcode_table.json: a word matches when `W & mask = pattern`. -/
structure OpcodeRow where
  mnemonic : String
  pattern  : Word
  mask     : Word
  deriving DecidableEq, Repr

/-- Does the word match the row (R75)? -/
def OpcodeRow.matchesWord (r : OpcodeRow) (w : Word) : Bool := w &&& r.mask == r.pattern

/-- The table's row of an instruction. -/
def rowOf : Instr → OpcodeRow
  | .cls => ⟨"CLS", 0x00E0#16, 0xFFFF#16⟩
  | .ret => ⟨"RET", 0x00EE#16, 0xFFFF#16⟩
  | .jp _ => ⟨"JP", 0x1000#16, 0xF000#16⟩
  | .call _ => ⟨"CALL", 0x2000#16, 0xF000#16⟩
  | .seVxNn _ _ => ⟨"SE_VX_NN", 0x3000#16, 0xF000#16⟩
  | .sneVxNn _ _ => ⟨"SNE_VX_NN", 0x4000#16, 0xF000#16⟩
  | .seVxVy _ _ _ => ⟨"SE_VX_VY", 0x5000#16, 0xF000#16⟩
  | .ldVxNn _ _ => ⟨"LD_VX_NN", 0x6000#16, 0xF000#16⟩
  | .addVxNn _ _ => ⟨"ADD_VX_NN", 0x7000#16, 0xF000#16⟩
  | .ldVxVy _ _ => ⟨"LD_VX_VY", 0x8000#16, 0xF00F#16⟩
  | .or _ _ => ⟨"OR", 0x8001#16, 0xF00F#16⟩
  | .and _ _ => ⟨"AND", 0x8002#16, 0xF00F#16⟩
  | .xor _ _ => ⟨"XOR", 0x8003#16, 0xF00F#16⟩
  | .addVxVy _ _ => ⟨"ADD_VX_VY", 0x8004#16, 0xF00F#16⟩
  | .sub _ _ => ⟨"SUB", 0x8005#16, 0xF00F#16⟩
  | .shr _ _ => ⟨"SHR", 0x8006#16, 0xF00F#16⟩
  | .subn _ _ => ⟨"SUBN", 0x8007#16, 0xF00F#16⟩
  | .shl _ _ => ⟨"SHL", 0x800E#16, 0xF00F#16⟩
  | .sneVxVy _ _ _ => ⟨"SNE_VX_VY", 0x9000#16, 0xF000#16⟩
  | .ldINnn _ => ⟨"LD_I_NNN", 0xA000#16, 0xF000#16⟩
  | .jpV0 _ => ⟨"JP_V0", 0xB000#16, 0xF000#16⟩
  | .rnd _ _ => ⟨"RND", 0xC000#16, 0xF000#16⟩
  | .drw _ _ _ => ⟨"DRW", 0xD000#16, 0xF000#16⟩
  | .skp _ => ⟨"SKP", 0xE09E#16, 0xF0FF#16⟩
  | .sknp _ => ⟨"SKNP", 0xE0A1#16, 0xF0FF#16⟩
  | .ldVxDt _ => ⟨"LD_VX_DT", 0xF007#16, 0xF0FF#16⟩
  | .ldVxK _ => ⟨"LD_VX_K", 0xF00A#16, 0xF0FF#16⟩
  | .ldDtVx _ => ⟨"LD_DT_VX", 0xF015#16, 0xF0FF#16⟩
  | .ldStVx _ => ⟨"LD_ST_VX", 0xF018#16, 0xF0FF#16⟩
  | .addIVx _ => ⟨"ADD_I_VX", 0xF01E#16, 0xF0FF#16⟩
  | .ldFVx _ => ⟨"LD_F_VX", 0xF029#16, 0xF0FF#16⟩
  | .ldBVx _ => ⟨"LD_B_VX", 0xF033#16, 0xF0FF#16⟩
  | .ldMemVx _ => ⟨"LD_MEM_VX", 0xF055#16, 0xF0FF#16⟩
  | .ldVxMem _ => ⟨"LD_VX_MEM", 0xF065#16, 0xF0FF#16⟩
  | .sys _ => ⟨"SYS", 0x0000#16, 0xF000#16⟩

/-- The 34 rows whose patterns are pairwise disjoint (R75), in the table's order; SYS, the last row of
the table, is consulted only when none of these matches. -/
def disjointRows : List OpcodeRow :=
  [rowOf .cls, rowOf .ret, rowOf (.jp 0), rowOf (.call 0), rowOf (.seVxNn 0 0), rowOf (.sneVxNn 0 0),
    rowOf (.seVxVy 0 0 0), rowOf (.ldVxNn 0 0), rowOf (.addVxNn 0 0)] ++
  [rowOf (.ldVxVy 0 0), rowOf (.or 0 0), rowOf (.and 0 0), rowOf (.xor 0 0), rowOf (.addVxVy 0 0),
    rowOf (.sub 0 0), rowOf (.shr 0 0), rowOf (.subn 0 0), rowOf (.shl 0 0)] ++
  [rowOf (.sneVxVy 0 0 0), rowOf (.ldINnn 0), rowOf (.jpV0 0), rowOf (.rnd 0 0), rowOf (.drw 0 0 0),
    rowOf (.skp 0), rowOf (.sknp 0)] ++
  [rowOf (.ldVxDt 0), rowOf (.ldVxK 0), rowOf (.ldDtVx 0), rowOf (.ldStVx 0), rowOf (.addIVx 0),
    rowOf (.ldFVx 0), rowOf (.ldBVx 0), rowOf (.ldMemVx 0), rowOf (.ldVxMem 0)]

/-- The row of the table that a word matches, SYS last (R75). -/
def tableRow (w : Word) : Option OpcodeRow :=
  (disjointRows ++ [rowOf (.sys 0)]).find? fun r => r.matchesWord w

/-! ## The host's reading of a table word -/

/-- The instruction the decoder reads from a word numbered as the table numbers it (R75: bit 0 least
significant, 16 bits, op0 the high byte): its bytes in memory order through `decodeBytes`. -/
def decodeTableWord (nbits w : Nat) : Option Instr :=
  match decodeBytes [wordHigh (BitVec.ofNat 16 (w % 2 ^ nbits)), wordLow (BitVec.ofNat 16 (w % 2 ^ nbits))] with
  | .instr i _ => some i
  | .invalid _ => none
  | .truncated => none

end Sys2Proof
end

