-- ==== Sys2Proof/Machine/System.lean ====
section
/-! DEFINITION. SYS (48_system.md R180): the words of group 0x0 that are not CLS or RET. -/

namespace Sys2Proof.Machine

/-- SYS nnn (R180): raises `InvalidOpcode(W)`, `W` the raw word (60_exceptions.md R202). -/
def execSys (nnn : Addr12) (s : State) : Result := raise (.invalidOpcode (formNNN 0x0#4 nnn)) s

end Sys2Proof.Machine
end

