-- ==== Sys2Proof/Machine/TimersKeys.lean ====
section
/-! DEFINITION. Timer access and key-wait (47_timers_keywait.md). -/

namespace Sys2Proof.Machine

/-- LD Vx, DT (R170). -/
def execLdVxDt (x : RegIdx) (s : State) : Result := writeResult (.ldVxDt x) x s.dt s

/-- LD DT, Vx (R171). -/
def execLdDtVx (x : RegIdx) (s : State) : Result :=
  .next ({ s with dt := s.reg x }.charge (openCost (.ldDtVx x) s))

/-- LD ST, Vx (R172). -/
def execLdStVx (x : RegIdx) (s : State) : Result :=
  .next ({ s with st := s.reg x }.charge (openCost (.ldStVx x) s))

/-- LD Vx, K (R173): with a key held, the least one's number to `x[X]`; with none, back to this
instruction's own address at the cost of a whole frame. -/
def execLdVxK (x : RegIdx) (s : State) : Result :=
  .next (if s.keys = 0#16 then (s.setPc (s.pc - 2#16)).charge keyWaitCost
    else (s.setReg x (BitVec.ofNat 8 (lowestKey s.keys))).charge (openCost (.ldVxK x) s))

end Sys2Proof.Machine
end

