-- ==== Sys2Proof/Machine/Frame.lean ====
section
/-! DEFINITION. The frame driver up to the dispatch (49_frame_driver.md R190 to R193): the start of a
frame, the fetch with its bounds check, the decode of the fetched word. -/

namespace Sys2Proof.Machine

/-- One tick of a timer: down by 1, floor 0 (10_state.md R19, R20; R190 steps 1 and 2). -/
def tick (t : Byte) : Byte := if t = 0#8 then 0#8 else t - 1#8

/-- Is the next step the first of a frame? The loop of R190 ends a frame when the budget is ≤ 0. -/
def State.frameDue (s : State) : Bool := decide (s.budget ≤ 0)

/-- The start of a frame, when one is due: both timers tick, the budget is set, and KEYS holds the mask
the host wrote between the frames (R190 steps 1 to 3, R199). Otherwise nothing. Written field by field, so
that what does not depend on the frame boundary does not wait for it (R195). -/
def State.enterFrame (s : State) : State :=
  { s with
    dt     := if s.frameDue then tick s.dt else s.dt
    st     := if s.frameDue then tick s.st else s.st
    keys   := if s.frameDue then Config.hostKeys s.frames else s.keys
    budget := if s.frameDue then frameBudget else s.budget
    frames := if s.frameDue then s.frames + 1 else s.frames }

/-- The word at `pc`: `MemRead(pc, 2)` (R192), the byte at the lower address in the high half. -/
def State.wordAt (s : State) (a : Nat) : Word := wordOfBytes (s.mem.read a) (s.mem.read (a + 1))

/-- `fetch()` (R192): nothing is read when `pc ≥ 4095`; otherwise the word, and `pc` advanced by 2. -/
def fetch (s : State) : Except Fault (Word × State) :=
  if 4095 ≤ s.pc.toNat then .error (.outOfBounds s.pc)
  else .ok (s.wordAt s.pc.toNat, s.setPc (s.pc + 2#16))

/-- Fetch, then decode (R193). An error comes with the state in which it is raised: `OutOfBounds` before
`pc` has moved, `InvalidOpcode` after (60_exceptions.md R211). -/
def fetchDecode (s : State) : Except (Fault × State) (Instr × State) :=
  match fetch s with
  | .error f => .error (f, s)
  | .ok (w, s') =>
    match decode w with
    | none => .error (.invalidOpcode w, s')
    | some i => .ok (i, s')

/-- The two bytes of a word stored at an address, where it lies in memory: what `State.withFetchWord` uses. -/
def Memory.writeWord (m : Memory) (a : Nat) (w : Word) : Memory :=
  if a + 1 < memSize then (m.write a (wordHigh w)).write (a + 1) (wordLow w) else m

end Sys2Proof.Machine
end

