-- ==== Sys2Proof/Machine/Driver.lean ====
section
/-! DEFINITION. One instruction step of the frame driver (49_frame_driver.md R193). -/

namespace Sys2Proof.Machine

/-- `step()` of R193: fetch, decode, execute; a fault of the fetch or of the decode is taken here. -/
def instructionStep (s : State) : Result :=
  match fetchDecode s with
  | .error (f, s') => raise f s'
  | .ok (i, s') => exec i s'

/-- The step of a machine that is not halted: the start of a frame when one is due, then one instruction
(R190). -/
def runningStep (s : State) : Result := instructionStep s.enterFrame

end Sys2Proof.Machine
end

