-- ==== Sys2Proof/Machine/Step.lean ====
section
/-! DEFINITION. The step of the machine, and the state in which a given word is the next instruction. -/

namespace Sys2Proof.Machine

/-- One step: an instruction step, with the start of a frame before it when one is due
(49_frame_driver.md R190, R193). A machine that has faulted is halted (60_exceptions.md R212) and
answers its fault. -/
def step (s : State) : Host.Outcome State Fault Refusal :=
  match s.fault with
  | some f => .fault f
  | none => runningStep s

/-- `s` with a word of the table stored where `step` fetches next, at `pc` and `pc + 1` in the order of
20_memory.md R44, and not halted. It changes nothing else; where `pc` is past 4094 there is no such
place. -/
def State.withFetchWord (s : State) (nbits w : Nat) : State :=
  { s with mem := s.mem.writeWord s.pc.toNat (BitVec.ofNat 16 (w % 2 ^ nbits)), fault := none }

end Sys2Proof.Machine
end

