-- ==== Sys2Proof/Machine/HostCalls.lean ====
section
/-! DEFINITION. The calls of the host (49_frame_driver.md R197 to R199): `new`, `load_program`, `frame`. -/

namespace Sys2Proof.Machine

/-- `new()` (R197, 10_state.md R27) of the machine with these OPEN parameters and this `FONT` (00_scope.md
R3): `State.reset` is `newMachine` at the defaults. -/
def newMachine (p : Params) (font : Vector Byte 80) : State :=
  { State.reset with params := p, mem := Memory.load [] 0 font.toList }

/-- `load_program(bytes)` (R198): to 512 on, nothing else changed; `CapacityError` over 3584 bytes. -/
def loadProgram (bytes : List Byte) (s : State) : Except Fault State :=
  if bytes.length ≤ programMax then .ok { s with mem := s.mem.load programBase bytes }
  else .error .capacityError

/-- The launch of 70_reset_and_hazards.md R232: `new`, then `load_program` once. -/
def launch (p : Params) (font : Vector Byte 80) (rom : List Byte) : Except Fault State :=
  loadProgram rom (newMachine p font)

/-- The loop of R190 from its first step on, with a bound on the steps: it ends when the budget is not
positive, which a fault also makes it (R210). -/
def frameLoop : Nat → State → Result
  | 0, s => .next s
  | n + 1, s =>
    match step s with
    | .next s' => if s'.budget ≤ 0 then .next s' else frameLoop n s'
    | .fault f => .fault f
    | .refused r => .refused r

/-- `frame()` (R190), called between frames: its first step starts the frame. At most 16666 steps run
(R196). The error it returns is the `fault` of the state it leaves; a halted machine has no further
frame (R212). -/
def frame (s : State) : Result := frameLoop frameBudget s

/-- The host driving `n` frames (R199). -/
def runFrames : Nat → State → Result
  | 0, s => .next s
  | n + 1, s =>
    match frame s with
    | .next s' => runFrames n s'
    | .fault f => .fault f
    | .refused r => .refused r

end Sys2Proof.Machine
end

