-- ==== Sys2Proof/Safety.lean ====
section
/-! DEFINITION. The terms in which claims are made: what a run without a fault is, the invariant of the
machine, what it is to leave a part of the state unchanged, and which instruction writes which part. -/

namespace Sys2Proof.Machine

/-- The machine has not faulted (60_exceptions.md R212). -/
def State.running (s : State) : Prop := s.fault = none

/-- A run of `n` steps from `s` that meets no fault and ends in `t` (70_reset_and_hazards.md R243). -/
def SafeRun : Nat → State → State → Prop
  | 0, s, t => s.running ∧ t = s
  | n + 1, s, t => ∃ u, step s = .next u ∧ u.running ∧ SafeRun n u t

/-- What every run keeps: canonical memory, a `STACK_DEPTH` of at least 1 (00_scope.md R3, D5), a stack no
deeper than it that holds only addresses a CALL can push (40_control_flow.md R102), `pc` within the bound of
10_state.md R17, and no more budget than a frame has (49_frame_driver.md R191). -/
structure State.Inv (s : State) : Prop where
  memory     : s.mem.wf = true
  hasStack   : 1 ≤ s.params.stackDepth
  depth      : s.stack.length ≤ s.params.stackDepth
  entries    : ∀ v ∈ s.stack, 2 ≤ v.toNat ∧ v.toNat ≤ 4096
  pcBound    : s.pc.toNat ≤ 4350
  budgetMost : s.budget ≤ frameBudget

/-! ## What an instruction leaves unchanged -/

/-- The parts of the state, by name. -/
inductive Part where
  | mem | regs | i | pc | stack | dt | st | fb | keys | budget | fault | frames | draws | params
  deriving DecidableEq, Repr

/-- A part is the same in both states. Memory is said through the read of one byte, the registers through
the read of one register. -/
def Part.same (s t : State) : Part → Prop
  | .mem => ∀ a, t.mem.read a = s.mem.read a
  | .regs => ∀ k, t.reg k = s.reg k
  | .i => t.i = s.i
  | .pc => t.pc = s.pc
  | .stack => t.stack = s.stack
  | .dt => t.dt = s.dt
  | .st => t.st = s.st
  | .fb => t.fb = s.fb
  | .keys => t.keys = s.keys
  | .budget => t.budget = s.budget
  | .fault => t.fault = s.fault
  | .frames => t.frames = s.frames
  | .draws => t.draws = s.draws
  | .params => t.params = s.params

/-- Every part but these is the same in both states. -/
def SameBut (parts : List Part) (s t : State) : Prop := ∀ p, p ∉ parts → p.same s t

/-- Every register but these is the same in both states. -/
def SameRegsBut (ks : List RegIdx) (s t : State) : Prop := ∀ k, k ∉ ks → t.reg k = s.reg k

/-- Every byte of memory is the same but the `n` bytes from address `a` on. -/
def SameMemBut (a n : Nat) (s t : State) : Prop :=
  ∀ b, b < a ∨ a + n ≤ b → t.mem.read b = s.mem.read b

/-! ## What memory holds after a store -/

/-- The byte at an address after the block store of registers 0 to `x` at `I` (44_index_memory.md R144). -/
def byteAfterBlockStore (x : RegIdx) (s : State) (a : Nat) : Byte :=
  if s.i.toNat ≤ a ∧ a ≤ s.i.toNat + x.toNat then s.reg (BitVec.ofNat 4 (a - s.i.toNat)) else s.mem.read a

/-- The byte at an address after the decimal digits of register `x` are stored at `I` (44_index_memory.md
R143). -/
def byteAfterDigitStore (x : RegIdx) (s : State) (a : Nat) : Byte :=
  if a = s.i.toNat then BitVec.ofNat 8 ((s.reg x).toNat / 100)
  else if a = s.i.toNat + 1 then BitVec.ofNat 8 ((s.reg x).toNat / 10 % 10)
  else if a = s.i.toNat + 2 then BitVec.ofNat 8 ((s.reg x).toNat % 10)
  else s.mem.read a

/-! ## Who writes what (10_state.md R12, R13, R18 to R22, 20_memory.md R40) -/

/-- The instruction writes the flag register as a side effect (10_state.md R12). -/
def flagWriter : Instr → Bool
  | .addVxVy _ _ | .sub _ _ | .shr _ _ | .subn _ _ | .shl _ _ | .drw _ _ _ => true
  | .cls | .ret | .jp _ | .call _ | .seVxNn _ _ | .sneVxNn _ _ | .seVxVy _ _ _ | .ldVxNn _ _
  | .addVxNn _ _ | .ldVxVy _ _ | .or _ _ | .and _ _ | .xor _ _ | .sneVxVy _ _ _ | .ldINnn _
  | .jpV0 _ | .rnd _ _ | .skp _ | .sknp _ | .ldVxDt _ | .ldVxK _ | .ldDtVx _ | .ldStVx _
  | .addIVx _ | .ldFVx _ | .ldBVx _ | .ldMemVx _ | .ldVxMem _ | .sys _ => false

/-- Register `k` is an ordinary destination of the instruction: its `X`, or one of `x[0]` to `x[X]` for
the block load (44_index_memory.md R145). -/
def isDestination (i : Instr) (k : RegIdx) : Bool :=
  match i with
  | .ldVxNn x _ | .addVxNn x _ | .ldVxVy x _ | .or x _ | .and x _ | .xor x _ | .addVxVy x _ | .sub x _
  | .shr x _ | .subn x _ | .shl x _ | .rnd x _ | .ldVxDt x | .ldVxK x => k == x
  | .ldVxMem x => decide (k.toNat ≤ x.toNat)
  | .cls | .ret | .jp _ | .call _ | .seVxNn _ _ | .sneVxNn _ _ | .seVxVy _ _ _ | .sneVxVy _ _ _
  | .ldINnn _ | .jpV0 _ | .drw _ _ _ | .skp _ | .sknp _ | .ldDtVx _ | .ldStVx _ | .addIVx _
  | .ldFVx _ | .ldBVx _ | .ldMemVx _ | .sys _ => false

/-- Where a skip with this condition leaves `pc`, entered with `pc` = `p` (10_state.md R15). -/
def pcAfterSkip (p q : Word) (taken : Prop) : Prop := (taken → q = p + 2#16) ∧ (¬ taken → q = p)

/-- Where `pc` is after an instruction entered in the state `s` with `pc` = `p` (the table of 10_state.md
R15); a fault keeps `p` (60_exceptions.md R211). -/
def pcAfter (i : Instr) (s : State) (p q : Word) : Prop :=
  match i with
  | .jp nnn => q.toNat = nnn.toNat
  | .call nnn =>
    (s.stack.length < s.params.stackDepth → q.toNat = nnn.toNat) ∧
    (s.params.stackDepth ≤ s.stack.length → q = p)
  | .ret => (∃ vs, s.stack = vs ++ [q]) ∨ (q = p ∧ s.stack = [])
  | .jpV0 nnn => q.toNat = nnn.toNat + (s.reg 0#4).toNat
  | .seVxNn x nn => pcAfterSkip p q (s.reg x = nn)
  | .sneVxNn x nn => pcAfterSkip p q (s.reg x ≠ nn)
  | .seVxVy x y _ => pcAfterSkip p q (s.reg x = s.reg y)
  | .sneVxVy x y _ => pcAfterSkip p q (s.reg x ≠ s.reg y)
  | .skp x => pcAfterSkip p q ((s.reg x).toNat ≤ 15 ∧ s.keys.getLsbD (s.reg x).toNat = true)
  | .sknp x => pcAfterSkip p q ((s.reg x).toNat ≤ 15 ∧ s.keys.getLsbD (s.reg x).toNat = false)
  | .ldVxK _ => (q = p - 2#16 ∧ s.keys = 0#16) ∨ (q = p ∧ s.keys ≠ 0#16)
  | .cls | .ldVxNn _ _ | .addVxNn _ _ | .ldVxVy _ _ | .or _ _ | .and _ _ | .xor _ _ | .addVxVy _ _
  | .sub _ _ | .shr _ _ | .subn _ _ | .shl _ _ | .ldINnn _ | .rnd _ _ | .drw _ _ _ | .ldVxDt _
  | .ldDtVx _ | .ldStVx _ | .addIVx _ | .ldFVx _ | .ldBVx _ | .ldMemVx _ | .ldVxMem _ | .sys _ => q = p

end Sys2Proof.Machine
end

