-- ==== Sys2Proof/Certificates/Slice0/Obligations.lean ====
section
/-! DEFINITION. The statements about the machine, from the numbered rules of spec/. A meaning is entered
with `pc` = the instruction's own address + 2 (00_scope.md R6), so `s.pc` below is that address. -/

open Sys2Proof Sys2Proof.Machine

/-! ## Encoding -/

/-- Every well-formed instruction is read back from its word (30_encoding.md R61 to R69). The opcode numbers
are the spec's own choice (D2, log 9). -/
def Obligations.DecodeOfEncodeIsIdentity : Prop :=
  ∀ i : Instr, i.wf = true → decode (encode i) = some i

/-- A word that decodes is the word of the instruction read from it, and that instruction is well-formed:
no bit of a word is lost and each word names one operation (R63). -/
def Obligations.EncodeOfDecodeIsIdentity : Prop :=
  ∀ (w : Word) (i : Instr), decode w = some i → encode i = w ∧ i.wf = true

/-- The decoding procedure of R63 and the rows of the opcode table (R75), SYS last, select the same row
for every word, and none for the same words. -/
def Obligations.DecoderAgreesWithOpcodeTable : Prop :=
  ∀ w : Word, tableRow w = (decode w).map rowOf

/-- The invalid words are exactly those of the table of R70: the rest of group 0x0 is SYS, which raises the
same fault (log 10, log 34), the others the decoder refuses. -/
def Obligations.InvalidWordsAreExactlyThese : Prop :=
  ∀ w : Word,
    ((∃ nnn, decode w = some (.sys nnn)) ↔
      w.toNat / 4096 = 0 ∧ w ≠ 0x00E0#16 ∧ w ≠ 0x00EE#16) ∧
    (decode w = none ↔
      (w.toNat / 4096 = 0x8 ∧ w.toNat % 16 ∈ [0x8, 0x9, 0xA, 0xB, 0xC, 0xD, 0xF]) ∨
      (w.toNat / 4096 = 0xE ∧ w.toNat % 256 ∉ [0x9E, 0xA1]) ∨
      (w.toNat / 4096 = 0xF ∧
        w.toNat % 256 ∉ [0x07, 0x0A, 0x15, 0x18, 0x1E, 0x29, 0x33, 0x55, 0x65]))

/-- Words of the spec's decode vectors (95_test_vectors.md section 3), one or more per family, read as listed
there, with the numbers of D2 (log 9). The one SYS word is V48-2, for which the spec lists the fault: that it
is an instruction SYS, which then raises that fault, is the model's (R75, R180, log 10, log 34). -/
def Obligations.SpecWordsDecodeAsListed : Prop :=
  decode 0x00E0#16 = some .cls ∧ decode 0x00EE#16 = some .ret ∧
  decode 0x2ABC#16 = some (.call 0xABC#12) ∧ decode 0x3ABC#16 = some (.seVxNn 0xA#4 0xBC#8) ∧
  decode 0x7ABC#16 = some (.addVxNn 0xA#4 0xBC#8) ∧ decode 0x8AB5#16 = some (.sub 0xA#4 0xB#4) ∧
  decode 0xAABC#16 = some (.ldINnn 0xABC#12) ∧ decode 0xCABC#16 = some (.rnd 0xA#4 0xBC#8) ∧
  decode 0xDABC#16 = some (.drw 0xA#4 0xB#4 0xC#4) ∧ decode 0xEAA1#16 = some (.sknp 0xA#4) ∧
  decode 0xFA0A#16 = some (.ldVxK 0xA#4) ∧ decode 0x0234#16 = some (.sys 0x234#12) ∧
  decode 0xFABC#16 = none ∧ decode 0x8AB8#16 = none

/-- R61: the fields of a word, as numbers, and how they overlap. -/
def Obligations.WordFieldsAreBitSlices : Prop :=
  ∀ w : Word,
    (fieldA w).toNat = w.toNat / 4096 ∧ (fieldX w).toNat = w.toNat / 256 % 16 ∧
    (fieldY w).toNat = w.toNat / 16 % 16 ∧ (fieldN w).toNat = w.toNat % 16 ∧
    fieldNN w = wordLow w ∧ fieldNNN w = fieldX w ++ fieldNN w ∧ fieldNN w = fieldY w ++ fieldN w ∧
    (fieldNNN w).toNat = (w.toNat / 256 % 16) * 256 + (wordLow w).toNat

/-- R60: an instruction is two bytes whatever they are, op0 the high half of the word and op1 the low half. -/
def Obligations.InstructionsAreTwoBigEndianBytes : Prop :=
  ∀ (op0 op1 : Byte) (rest : List Byte),
    (wordOfBytes op0 op1).toNat = op0.toNat * 256 + op1.toNat ∧
    wordHigh (wordOfBytes op0 op1) = op0 ∧ wordLow (wordOfBytes op0 op1) = op1 ∧
    decodeBytes (op0 :: op1 :: rest) =
      (match decode (wordOfBytes op0 op1) with
        | some i => .instr i rest
        | none => .invalid (wordOfBytes op0 op1))

/-- R69: groups 0x5 and 0x9 decode for every `N`, and `N` changes nothing that the instruction does (D4,
log 11). -/
def Obligations.IgnoredNibbleChangesNothing : Prop :=
  ∀ (x y : RegIdx) (n m : Nibble) (s : State),
    decode (0x5#4 ++ x ++ y ++ n) = some (.seVxVy x y n) ∧
    decode (0x9#4 ++ x ++ y ++ n) = some (.sneVxVy x y n) ∧
    exec (.seVxVy x y n) s = exec (.seVxVy x y m) s ∧ exec (.sneVxVy x y n) s = exec (.sneVxVy x y m) s

/-! ## The step, the frame, faults, reset -/

/-- R193: when the two bytes at `pc`, the lower address in the high half, decode to an instruction, the
step of a machine that has not faulted is that instruction's meaning, after the start of a frame when one
is due and with `pc` advanced by 2. -/
def Obligations.StepRunsDecodedInstruction : Prop :=
  ∀ (s : State) (i : Instr), s.fault = none → s.pc.toNat ≤ 4094 → i.wf = true →
    decode (s.mem.read s.pc.toNat ++ s.mem.read (s.pc.toNat + 1)) = some i →
    step s = exec i (s.enterFrame.setPc (s.pc + 2#16))

/-- R202, R211: an undecodable word raises `InvalidOpcode` with that word, `pc` already advanced and the
frame's timer ticks kept. That the fault is taken as a next state is the model's (log 19). -/
def Obligations.StepOnInvalidWordRaises : Prop :=
  ∀ s : State, s.fault = none → s.pc.toNat ≤ 4094 →
    decode (s.mem.read s.pc.toNat ++ s.mem.read (s.pc.toNat + 1)) = none →
    ∃ t, step s = .next t ∧
      t.fault = some (.invalidOpcode (s.mem.read s.pc.toNat ++ s.mem.read (s.pc.toNat + 1))) ∧
      t.pc = s.pc + 2#16 ∧ t.budget = 0 ∧ SameBut [.pc, .fault, .budget] s.enterFrame t

/-- R192, R203, R211: a fetch at 4095 or above raises `OutOfBounds` with `pc`, and changes nothing else
(D17, log 21). -/
def Obligations.StepPastMemoryRaisesOutOfBounds : Prop :=
  ∀ s : State, s.fault = none → 4095 ≤ s.pc.toNat →
    ∃ t, step s = .next t ∧ t.fault = some (.outOfBounds s.pc) ∧ t.budget = 0 ∧
      SameBut [.fault, .budget] s.enterFrame t

/-- R212: a machine that has faulted runs nothing more (D16, log 19). -/
def Obligations.HaltedMachineAnswersItsFault : Prop :=
  ∀ (s : State) (f : Fault), s.fault = some f → step s = .fault f

/-- R190 steps 1 to 3, R19, R20: a frame that is due starts with both timers down by 1, floor 0, the whole
budget and the host's key mask for that frame; in the middle of a frame nothing of the kind happens (D18,
log 22). -/
def Obligations.FrameStartTicksBothTimers : Prop :=
  ∀ s : State,
    (s.budget ≤ 0 →
      s.enterFrame.dt.toNat = s.dt.toNat - 1 ∧ s.enterFrame.st.toNat = s.st.toNat - 1 ∧
      s.enterFrame.budget = 16666 ∧ s.enterFrame.keys = Config.hostKeys s.frames ∧
      s.enterFrame.frames = s.frames + 1 ∧
      SameBut [.dt, .st, .budget, .keys, .frames] s s.enterFrame) ∧
    (0 < s.budget → s.enterFrame = s)

/-- The invariant of the machine is kept by every step: canonical memory, a stack of at most `STACK_DEPTH`
entries each between 2 and 4096 (R18, R102), `pc` at most 4350 (R17), budget at most 16666 (R191). -/
def Obligations.StepKeepsMachineInvariant : Prop :=
  ∀ s t : State, s.Inv → step s = .next t → t.Inv

/-- The invariant holds after reset, and after `new()` with every `FONT` and every `STACK_DEPTH` of at least 1.
Its bound on the budget rests there on the model's own reset value, since R27 gives none (log 2). -/
def Obligations.ResetMeetsMachineInvariant : Prop :=
  State.reset.Inv ∧
  ∀ (p : Params) (font : Vector Byte 80), 1 ≤ p.stackDepth → (newMachine p font).Inv

/-- R27: the state `new()` returns, for all the OPEN parameters and every `FONT` (R3); the reset state is the
one for the defaults (D5, D8, D14, log 6, log 7, log 8). `I` and `KEYS` are the spec's decision (D23, log 26). -/
def Obligations.ResetLeavesSpecifiedValues : Prop :=
  State.reset = newMachine Params.default defaultFont ∧
  ∀ (p : Params) (font : Vector Byte 80) (s : State), s = newMachine p font →
    (∀ k, s.reg k = 0#8) ∧ s.i = 0#16 ∧ s.pc.toNat = 512 ∧ s.stack = [] ∧ s.dt = 0#8 ∧ s.st = 0#8 ∧
    (∀ j < 256, fbByte s.fb j = 0#8) ∧ s.keys = 0#16 ∧ s.fault = none ∧ s.params = p ∧
    (∀ a, (h : a < 80) → s.mem.read a = font[a]) ∧ (∀ a, 80 ≤ a → s.mem.read a = 0#8)

/-- R190, R196, R22: from every state between two frames `frame()` returns, whatever the costs, and exactly
one frame has started. The key mask is one all through the frame: the frame's first step takes the host's for
that frame, and every step inside a frame keeps the mask and starts no frame. -/
def Obligations.FrameAlwaysReturns : Prop :=
  (∀ s : State, s.fault = none → s.budget ≤ 0 →
    ∃ t, frame s = .next t ∧ t.budget ≤ 0 ∧ t.frames = s.frames + 1 ∧
      t.keys = Config.hostKeys s.frames) ∧
  (∀ s t : State, step s = .next t → s.budget ≤ 0 →
    t.keys = Config.hostKeys s.frames ∧ t.frames = s.frames + 1) ∧
  (∀ s t : State, step s = .next t → 0 < s.budget → t.keys = s.keys ∧ t.frames = s.frames)

/-- R100, R196: a jump to its own address runs for any number of frames without a fault; meanwhile only the
timers, the keys and the frame bookkeeping change, each timer by 1 a frame with floor 0. -/
def Obligations.SelfJumpRunsForever : Prop :=
  ∀ (n : Nat) (s : State), s.fault = none → s.budget ≤ 0 → s.pc.toNat ≤ 4094 →
    s.mem.read s.pc.toNat ++ s.mem.read (s.pc.toNat + 1) = 0x1#4 ++ s.pc.extractLsb' 0 12 →
    ∃ t, runFrames n s = .next t ∧ t.fault = none ∧ t.pc = s.pc ∧ t.frames = s.frames + n ∧
      t.dt.toNat = s.dt.toNat - n ∧ t.st.toNat = s.st.toNat - n ∧
      SameBut [.dt, .st, .keys, .budget, .frames] s t

/-- R198, R201: a program of at most 3584 bytes is copied to 512 on and nothing else changes; a longer one
fails with `CapacityError`. -/
def Obligations.LoadProgramCopiesOrFails : Prop :=
  ∀ (bytes : List Byte) (s : State), s.mem.wf = true →
    (bytes.length ≤ 3584 → ∃ t, loadProgram bytes s = .ok t ∧
      (∀ j, (h : j < bytes.length) → t.mem.read (512 + j) = bytes[j]) ∧
      SameMemBut 512 bytes.length s t ∧ SameBut [.mem] s t) ∧
    (3584 < bytes.length → loadProgram bytes s = .error .capacityError)

/-- R50: after either store instruction, wherever it stores, the very next fetch reads what was stored: each
of its two bytes is the stored one where the store covers it, and as before where it does not (D26, log 28). -/
def Obligations.StoreIsSeenByNextFetch : Prop :=
  ∀ (x : RegIdx) (s : State), s.mem.wf = true → s.pc.toNat ≤ 4094 →
    (s.i.toNat + x.toNat ≤ 4095 → ∃ t, exec (.ldMemVx x) s = .next t ∧
      fetch t = .ok (byteAfterBlockStore x s s.pc.toNat ++ byteAfterBlockStore x s (s.pc.toNat + 1),
        t.setPc (s.pc + 2#16))) ∧
    (s.i.toNat + 2 ≤ 4095 → ∃ t, exec (.ldBVx x) s = .next t ∧
      fetch t = .ok (byteAfterDigitStore x s s.pc.toNat ++ byteAfterDigitStore x s (s.pc.toNat + 1),
        t.setPc (s.pc + 2#16)))

/-! ## Control flow -/

/-- R100: JP nnn. -/
def Obligations.JumpSetsPc : Prop :=
  ∀ (nnn : Addr12) (s : State), decode (0x1#4 ++ nnn) = some (.jp nnn) ∧
    ∃ t, exec (.jp nnn) s = .next t ∧ t.pc.toNat = nnn.toNat ∧
      t.budget = s.budget - openCost (.jp nnn) s ∧ 1 ≤ openCost (.jp nnn) s ∧
      SameBut [.pc, .budget] s t

/-- R101, R18: CALL nnn with room on the stack, whatever `STACK_DEPTH` is, pushes the address after it and
jumps (D5, log 7). -/
def Obligations.CallPushesReturnAddress : Prop :=
  ∀ (nnn : Addr12) (s : State), s.stack.length < s.params.stackDepth →
    ∃ t, exec (.call nnn) s = .next t ∧ t.stack = s.stack ++ [s.pc] ∧ t.pc.toNat = nnn.toNat ∧
      t.budget = s.budget - openCost (.call nnn) s ∧ SameBut [.stack, .pc, .budget] s t

/-- R101, R205: CALL on a full stack raises `StackOverflow`, nothing pushed and `pc` as entered (D5, log 7). -/
def Obligations.CallOnFullStackRaises : Prop :=
  ∀ (nnn : Addr12) (s : State), s.params.stackDepth ≤ s.stack.length →
    ∃ t, exec (.call nnn) s = .next t ∧ t.fault = some .stackOverflow ∧ t.budget = 0 ∧
      SameBut [.fault, .budget] s t

/-- R102: RET pops the entry pushed last into `pc`. -/
def Obligations.ReturnPopsReturnAddress : Prop :=
  ∀ (s : State) (vs : List Word) (v : Word), s.stack = vs ++ [v] →
    ∃ t, exec .ret s = .next t ∧ t.pc = v ∧ t.stack = vs ∧
      t.budget = s.budget - openCost .ret s ∧ SameBut [.stack, .pc, .budget] s t

/-- R102, R204: RET on an empty stack raises `StackUnderflow`. -/
def Obligations.ReturnOnEmptyStackRaises : Prop :=
  ∀ s : State, s.stack = [] →
    ∃ t, exec .ret s = .next t ∧ t.fault = some .stackUnderflow ∧ t.budget = 0 ∧
      SameBut [.fault, .budget] s t

/-- R101, R102: whatever runs in between, when the stack is again as the CALL left it, RET resumes after
the CALL and leaves the stack as it was before. -/
def Obligations.CallThenReturnResumes : Prop :=
  ∀ (nnn : Addr12) (s : State), s.stack.length < s.params.stackDepth →
    ∃ t, exec (.call nnn) s = .next t ∧
      ∀ t' : State, t'.stack = t.stack → ∃ u, exec .ret t' = .next u ∧ u.pc = s.pc ∧ u.stack = s.stack

/-- R103: JP V0, nnn, with a sum that is not reduced to 12 bits (D20, log 24). -/
def Obligations.IndexedJumpAddsRegisterZero : Prop :=
  ∀ (nnn : Addr12) (s : State),
    ∃ t, exec (.jpV0 nnn) s = .next t ∧ t.pc.toNat = nnn.toNat + (s.reg 0#4).toNat ∧
      t.budget = s.budget - openCost (.jpV0 nnn) s ∧ SameBut [.pc, .budget] s t

/-! ## Conditional skips -/

/-- R110, R111: SE Vx, nn and SNE Vx, nn. -/
def Obligations.ImmediateSkips : Prop :=
  ∀ (x : RegIdx) (nn : Byte) (s : State),
    (∃ t, exec (.seVxNn x nn) s = .next t ∧
      (s.reg x = nn → t.pc = s.pc + 2#16 ∧ t.budget = s.budget - 64) ∧
      (s.reg x ≠ nn → t.pc = s.pc ∧ t.budget = s.budget - 46) ∧ SameBut [.pc, .budget] s t) ∧
    (∃ t, exec (.sneVxNn x nn) s = .next t ∧
      (s.reg x ≠ nn → t.pc = s.pc + 2#16 ∧ t.budget = s.budget - 64) ∧
      (s.reg x = nn → t.pc = s.pc ∧ t.budget = s.budget - 46) ∧ SameBut [.pc, .budget] s t)

/-- R112, R113: SE Vx, Vy and SNE Vx, Vy. -/
def Obligations.RegisterSkips : Prop :=
  ∀ (x y : RegIdx) (n : Nibble) (s : State),
    (∃ t, exec (.seVxVy x y n) s = .next t ∧
      (s.reg x = s.reg y → t.pc = s.pc + 2#16 ∧ t.budget = s.budget - 82) ∧
      (s.reg x ≠ s.reg y → t.pc = s.pc ∧ t.budget = s.budget - 64) ∧ SameBut [.pc, .budget] s t) ∧
    (∃ t, exec (.sneVxVy x y n) s = .next t ∧
      (s.reg x ≠ s.reg y → t.pc = s.pc + 2#16 ∧ t.budget = s.budget - 82) ∧
      (s.reg x = s.reg y → t.pc = s.pc ∧ t.budget = s.budget - 64) ∧ SameBut [.pc, .budget] s t)

/-- R114, R115: SKP Vx and SKNP Vx for a register that holds a key number. -/
def Obligations.KeySkips : Prop :=
  ∀ (x : RegIdx) (s : State), (s.reg x).toNat ≤ 15 →
    (∃ t, exec (.skp x) s = .next t ∧
      (s.keys.getLsbD (s.reg x).toNat = true → t.pc = s.pc + 2#16 ∧ t.budget = s.budget - 64) ∧
      (s.keys.getLsbD (s.reg x).toNat = false → t.pc = s.pc ∧ t.budget = s.budget - 82) ∧
      SameBut [.pc, .budget] s t) ∧
    (∃ t, exec (.sknp x) s = .next t ∧
      (s.keys.getLsbD (s.reg x).toNat = false → t.pc = s.pc + 2#16 ∧ t.budget = s.budget - 64) ∧
      (s.keys.getLsbD (s.reg x).toNat = true → t.pc = s.pc ∧ t.budget = s.budget - 82) ∧
      SameBut [.pc, .budget] s t)

/-- R114, R115, R207: a key number above 15 raises `KeyIndexOutOfRange` with the value (D13, log 18). -/
def Obligations.KeySkipPastKeysRaises : Prop :=
  ∀ (x : RegIdx) (s : State), 15 < (s.reg x).toNat →
    (∃ t, exec (.skp x) s = .next t ∧ t.fault = some (.keyIndexOutOfRange (s.reg x)) ∧ t.budget = 0 ∧
      SameBut [.fault, .budget] s t) ∧
    (∃ t, exec (.sknp x) s = .next t ∧ t.fault = some (.keyIndexOutOfRange (s.reg x)) ∧ t.budget = 0 ∧
      SameBut [.fault, .budget] s t)

/-! ## Immediate and register-register operations -/

/-- R120: LD Vx, nn. -/
def Obligations.LoadImmediate : Prop :=
  ∀ (x : RegIdx) (nn : Byte) (s : State), decode (0x6#4 ++ x ++ nn) = some (.ldVxNn x nn) ∧
    ∃ t, exec (.ldVxNn x nn) s = .next t ∧ t.reg x = nn ∧
      t.budget = s.budget - openCost (.ldVxNn x nn) s ∧
      SameRegsBut [x] s t ∧ SameBut [.regs, .budget] s t

/-- R121: ADD Vx, nn wraps at 256 and writes no flag. -/
def Obligations.AddImmediateWrapsWithoutFlag : Prop :=
  ∀ (x : RegIdx) (nn : Byte) (s : State), decode (0x7#4 ++ x ++ nn) = some (.addVxNn x nn) ∧
    ∃ t, exec (.addVxNn x nn) s = .next t ∧ (t.reg x).toNat = ((s.reg x).toNat + nn.toNat) % 256 ∧
      t.budget = s.budget - openCost (.addVxNn x nn) s ∧
      SameRegsBut [x] s t ∧ SameBut [.regs, .budget] s t

/-- R130 to R133: LD, OR, AND, XOR, bit by bit, with no flag (D11, log 16). -/
def Obligations.CopyAndBitwiseOperations : Prop :=
  ∀ (x y : RegIdx) (s : State),
    (∃ t, exec (.ldVxVy x y) s = .next t ∧ t.reg x = s.reg y ∧
      t.budget = s.budget - openCost (.ldVxVy x y) s ∧
      SameRegsBut [x] s t ∧ SameBut [.regs, .budget] s t) ∧
    (∃ t, exec (.or x y) s = .next t ∧
      (∀ k < 8, (t.reg x).getLsbD k = ((s.reg x).getLsbD k || (s.reg y).getLsbD k)) ∧
      t.budget = s.budget - openCost (.or x y) s ∧
      SameRegsBut [x] s t ∧ SameBut [.regs, .budget] s t) ∧
    (∃ t, exec (.and x y) s = .next t ∧
      (∀ k < 8, (t.reg x).getLsbD k = ((s.reg x).getLsbD k && (s.reg y).getLsbD k)) ∧
      t.budget = s.budget - openCost (.and x y) s ∧
      SameRegsBut [x] s t ∧ SameBut [.regs, .budget] s t) ∧
    (∃ t, exec (.xor x y) s = .next t ∧
      (∀ k < 8, (t.reg x).getLsbD k = xor ((s.reg x).getLsbD k) ((s.reg y).getLsbD k)) ∧
      t.budget = s.budget - openCost (.xor x y) s ∧
      SameRegsBut [x] s t ∧ SameBut [.regs, .budget] s t)

/-- R134, R139: ADD Vx, Vy; the flag is written last, so it is what register 15 holds when `X` is 15 (D9,
log 14). -/
def Obligations.AddSetsCarry : Prop :=
  ∀ (x y : RegIdx) (s : State), ∃ t, exec (.addVxVy x y) s = .next t ∧
    (x ≠ 15#4 → (t.reg x).toNat = ((s.reg x).toNat + (s.reg y).toNat) % 256) ∧
    t.reg 15#4 = (if (s.reg x).toNat + (s.reg y).toNat > 255 then 1#8 else 0#8) ∧
    t.budget = s.budget - openCost (.addVxVy x y) s ∧
    SameRegsBut [x, 15#4] s t ∧ SameBut [.regs, .budget] s t

/-- R135, R137, R139: SUB and SUBN; the flag is 1 when no borrow occurred (D9, log 14). -/
def Obligations.SubtractSetsNoBorrow : Prop :=
  ∀ (x y : RegIdx) (s : State),
    (∃ t, exec (.sub x y) s = .next t ∧
      (x ≠ 15#4 → (t.reg x).toNat = (256 + (s.reg x).toNat - (s.reg y).toNat) % 256) ∧
      t.reg 15#4 = (if (s.reg x).toNat ≥ (s.reg y).toNat then 1#8 else 0#8) ∧
      t.budget = s.budget - openCost (.sub x y) s ∧
      SameRegsBut [x, 15#4] s t ∧ SameBut [.regs, .budget] s t) ∧
    (∃ t, exec (.subn x y) s = .next t ∧
      (x ≠ 15#4 → (t.reg x).toNat = (256 + (s.reg y).toNat - (s.reg x).toNat) % 256) ∧
      t.reg 15#4 = (if (s.reg y).toNat ≥ (s.reg x).toNat then 1#8 else 0#8) ∧
      t.budget = s.budget - openCost (.subn x y) s ∧
      SameRegsBut [x, 15#4] s t ∧ SameBut [.regs, .budget] s t)

/-- R136, R138, R139: SHR and SHL of the register that `SHIFT_SOURCE` names, under either of its values (D8,
log 8), the flag the bit shifted out, written last (D9, log 14). -/
def Obligations.ShiftsByOneSetShiftedOutBit : Prop :=
  ∀ (x y : RegIdx) (s : State) (src : Byte),
    src = (match s.params.shiftSource with | .x => s.reg x | .y => s.reg y) →
    (∃ t, exec (.shr x y) s = .next t ∧ (x ≠ 15#4 → (t.reg x).toNat = src.toNat / 2) ∧
      (t.reg 15#4).toNat = src.toNat % 2 ∧ t.budget = s.budget - openCost (.shr x y) s ∧
      SameRegsBut [x, 15#4] s t ∧ SameBut [.regs, .budget] s t) ∧
    (∃ t, exec (.shl x y) s = .next t ∧ (x ≠ 15#4 → (t.reg x).toNat = 2 * src.toNat % 256) ∧
      (t.reg 15#4).toNat = src.toNat / 128 ∧ t.budget = s.budget - openCost (.shl x y) s ∧
      SameRegsBut [x, 15#4] s t ∧ SameBut [.regs, .budget] s t)

/-! ## Index register and memory -/

/-- R140, R141, R142: LD I, nnn; ADD I, Vx, wrapping at 65536 with no flag (D11, log 16); LD F, Vx, for
every value of the register (D12, log 17). -/
def Obligations.IndexRegisterWrites : Prop :=
  ∀ (nnn : Addr12) (x : RegIdx) (s : State),
    (∃ t, exec (.ldINnn nnn) s = .next t ∧ t.i.toNat = nnn.toNat ∧
      t.budget = s.budget - openCost (.ldINnn nnn) s ∧ SameBut [.i, .budget] s t) ∧
    (∃ t, exec (.addIVx x) s = .next t ∧ t.i.toNat = (s.i.toNat + (s.reg x).toNat) % 65536 ∧
      t.budget = s.budget - openCost (.addIVx x) s ∧ SameBut [.i, .budget] s t) ∧
    (∃ t, exec (.ldFVx x) s = .next t ∧ t.i.toNat = (s.reg x).toNat * 5 ∧
      t.budget = s.budget - openCost (.ldFVx x) s ∧ SameBut [.i, .budget] s t)

/-- R143: LD B stores hundreds, tens and ones at `I`, `I + 1`, `I + 2`, and no other byte changes; `I` does
not change (D10, log 15). -/
def Obligations.DecimalDigitsStored : Prop :=
  ∀ (x : RegIdx) (s : State), s.mem.wf = true → s.i.toNat + 2 ≤ 4095 →
    ∃ t, exec (.ldBVx x) s = .next t ∧
      (t.mem.read s.i.toNat).toNat = (s.reg x).toNat / 100 ∧
      (t.mem.read (s.i.toNat + 1)).toNat = (s.reg x).toNat / 10 % 10 ∧
      (t.mem.read (s.i.toNat + 2)).toNat = (s.reg x).toNat % 10 ∧
      t.budget = s.budget - openCost (.ldBVx x) s ∧
      SameMemBut s.i.toNat 3 s t ∧ SameBut [.mem, .budget] s t

/-- R144: the block store puts registers 0 to `X` at `I` … `I + X`, and no other byte changes; `I` does not
change (D10, log 15). -/
def Obligations.BlockStoreCopiesRegisters : Prop :=
  ∀ (x : RegIdx) (s : State), s.mem.wf = true → s.i.toNat + x.toNat ≤ 4095 →
    ∃ t, exec (.ldMemVx x) s = .next t ∧
      (∀ k : RegIdx, k.toNat ≤ x.toNat → t.mem.read (s.i.toNat + k.toNat) = s.reg k) ∧
      t.budget = s.budget - openCost (.ldMemVx x) s ∧
      SameMemBut s.i.toNat (x.toNat + 1) s t ∧ SameBut [.mem, .budget] s t

/-- R145: the block load fills registers 0 to `X` from `I` … `I + X`; `I` does not change (D10, log 15). -/
def Obligations.BlockLoadFillsRegisters : Prop :=
  ∀ (x : RegIdx) (s : State), s.i.toNat + x.toNat ≤ 4095 →
    ∃ t, exec (.ldVxMem x) s = .next t ∧
      (∀ k : RegIdx, t.reg k =
        if k.toNat ≤ x.toNat then s.mem.read (s.i.toNat + k.toNat) else s.reg k) ∧
      t.budget = s.budget - openCost (.ldVxMem x) s ∧ SameBut [.regs, .budget] s t

/-- R43, R206: a transfer whose last address is above 4095 raises `MemoryOutOfRange` with the first address
above 4095 (D6, log 12). That none of it is done is the model's choice among those R206 allows (D30,
log 20). -/
def Obligations.TransferPastMemoryRaises : Prop :=
  ∀ (i : Instr) (s : State),
    ((∃ x, i = .ldBVx x ∧ s.i.toNat + 2 > 4095) ∨
      (∃ x : RegIdx, (i = .ldMemVx x ∨ i = .ldVxMem x) ∧ s.i.toNat + x.toNat > 4095) ∨
      (∃ x y, ∃ n : Nibble, i = .drw x y n ∧ 1 ≤ n.toNat ∧ s.i.toNat + n.toNat - 1 > 4095)) →
    ∃ t, exec i s = .next t ∧ t.fault = some (.memoryOutOfRange (max s.i.toNat 4096)) ∧
      t.budget = 0 ∧ SameBut [.fault, .budget] s t

/-! ## Random, display, timers, keys, system -/

/-- R150: RND stores a fresh free byte ANDed with the mask, for every value of that byte (D21, log 3). -/
def Obligations.RandomByteIsMasked : Prop :=
  ∀ (x : RegIdx) (nn : Byte) (s : State),
    ∃ t, exec (.rnd x nn) s = .next t ∧ t.reg x = Config.rand8 s.draws &&& nn ∧
      t.reg x &&& ~~~nn = 0#8 ∧ (t.reg x).toNat ≤ nn.toNat ∧ t.draws = s.draws + 1 ∧
      t.budget = s.budget - openCost (.rnd x nn) s ∧
      SameRegsBut [x] s t ∧ SameBut [.regs, .draws, .budget] s t

/-- R160: CLS. -/
def Obligations.ClearScreenZeroesFramebuffer : Prop :=
  ∀ s : State, decode 0x00E0#16 = some .cls ∧
    ∃ t, exec .cls s = .next t ∧ (∀ j < 256, fbByte t.fb j = 0#8) ∧
      t.budget = s.budget - openCost .cls s ∧ SameBut [.fb, .budget] s t

/-- R162: DRW pixel by pixel. Every sprite bit flips its pixel, wrapping at 64 columns and 32 rows; every
other pixel is unchanged; register 15 is 1 when a set bit landed on a set pixel, else 0. With `n` = 0 no
byte is read, whatever `I` is (R161). -/
def Obligations.DrawIsPixelwiseXor : Prop :=
  ∀ (x y : RegIdx) (n : Nibble) (s : State), n.toNat = 0 ∨ s.i.toNat + n.toNat ≤ 4096 →
    ∃ t, exec (.drw x y n) s = .next t ∧
      (∀ row < n.toNat, ∀ j < 8,
        pixel t.fb (((s.reg x).toNat + j) % 64) (((s.reg y).toNat + row) % 32) =
          xor (pixel s.fb (((s.reg x).toNat + j) % 64) (((s.reg y).toNat + row) % 32))
            ((s.mem.read (s.i.toNat + row)).getLsbD (7 - j))) ∧
      (∀ c < 64, ∀ r < 32,
        (∀ row < n.toNat, ∀ j < 8,
          ¬ (c = ((s.reg x).toNat + j) % 64 ∧ r = ((s.reg y).toNat + row) % 32)) →
        pixel t.fb c r = pixel s.fb c r) ∧
      (t.reg 15#4 = 0#8 ∨ t.reg 15#4 = 1#8) ∧
      (t.reg 15#4 = 1#8 ↔ ∃ row < n.toNat, ∃ j < 8,
        (s.mem.read (s.i.toNat + row)).getLsbD (7 - j) = true ∧
        pixel s.fb (((s.reg x).toNat + j) % 64) (((s.reg y).toNat + row) % 32) = true) ∧
      t.budget = s.budget - openCost (.drw x y n) s ∧
      SameRegsBut [15#4] s t ∧ SameBut [.fb, .regs, .budget] s t

/-- R162 (a): the same sprite drawn twice at the same place gives the framebuffer back; the second draw
reports a collision exactly when a set sprite bit landed on a pixel that was 0 before the first. Any two
registers may hold the place of the second draw. Where neither register of the first is the flag register they
still hold it, so the same word drawn again is such a second draw; where one is, the first draw's flag moves the
place that word draws at next. Pixel order D22 (log 25), flag last D9 (log 14), `I` unchanged D10 (log 15). -/
def Obligations.DrawTwiceRestoresFramebuffer : Prop :=
  ∀ (x y : RegIdx) (n : Nibble) (s : State), n.toNat = 0 ∨ s.i.toNat + n.toNat ≤ 4096 →
    ∃ t, exec (.drw x y n) s = .next t ∧ SameRegsBut [15#4] s t ∧
      ∀ x' y' : RegIdx, (t.reg x').toNat % 64 = (s.reg x).toNat % 64 →
        (t.reg y').toNat % 32 = (s.reg y).toNat % 32 →
        ∃ u, exec (.drw x' y' n) t = .next u ∧ u.fb = s.fb ∧
          (u.reg 15#4 = 1#8 ↔ ∃ row < n.toNat, ∃ j < 8,
            (s.mem.read (s.i.toNat + row)).getLsbD (7 - j) = true ∧
            pixel s.fb (((s.reg x).toNat + j) % 64) (((s.reg y).toNat + row) % 32) = false)

/-- R170, R171, R172: LD Vx, DT; LD DT, Vx; LD ST, Vx. -/
def Obligations.TimerTransfers : Prop :=
  ∀ (x : RegIdx) (s : State),
    (∃ t, exec (.ldVxDt x) s = .next t ∧ t.reg x = s.dt ∧
      t.budget = s.budget - openCost (.ldVxDt x) s ∧
      SameRegsBut [x] s t ∧ SameBut [.regs, .budget] s t) ∧
    (∃ t, exec (.ldDtVx x) s = .next t ∧ t.dt = s.reg x ∧
      t.budget = s.budget - openCost (.ldDtVx x) s ∧ SameBut [.dt, .budget] s t) ∧
    (∃ t, exec (.ldStVx x) s = .next t ∧ t.st = s.reg x ∧
      t.budget = s.budget - openCost (.ldStVx x) s ∧ SameBut [.st, .budget] s t)

/-- R173, R238: key-wait. With a key held it loads the least key's number; with none it goes back to its own
address, at the cost of a whole frame, which ends the frame. -/
def Obligations.KeyWaitLoadsLeastKeyOrRepeats : Prop :=
  ∀ (x : RegIdx) (s : State),
    (s.keys ≠ 0#16 → ∃ t, exec (.ldVxK x) s = .next t ∧
      (∃ k < 16, s.keys.getLsbD k = true ∧ (∀ j < k, s.keys.getLsbD j = false) ∧ (t.reg x).toNat = k) ∧
      t.budget = s.budget - openCost (.ldVxK x) s ∧
      SameRegsBut [x] s t ∧ SameBut [.regs, .budget] s t) ∧
    (s.keys = 0#16 → ∃ t, exec (.ldVxK x) s = .next t ∧ t.pc = s.pc - 2#16 ∧
      t.budget = s.budget - 16666 ∧ (s.budget ≤ 16666 → t.budget ≤ 0) ∧ SameBut [.pc, .budget] s t)

/-- R180, R202: SYS raises `InvalidOpcode` with the raw word, and nothing else changes (D1, log 10). -/
def Obligations.SysRaisesInvalidOpcode : Prop :=
  ∀ (nnn : Addr12) (s : State),
    ∃ t, exec (.sys nnn) s = .next t ∧ t.fault = some (.invalidOpcode (0x0#4 ++ nnn)) ∧ t.budget = 0 ∧
      SameBut [.fault, .budget] s t

/-! ## Rules of the whole machine -/

/-- R11, R12: a register changes only as the destination of an instruction, register 15 also by the six
operations that write the flag, which write 0 or 1 (D9, D11, log 14, log 16). -/
def Obligations.RegistersHaveOnlyTheirWriters : Prop :=
  ∀ (i : Instr) (s t : State), exec i s = .next t →
    (∀ k, isDestination i k = false → (k = 15#4 → flagWriter i = false) → t.reg k = s.reg k) ∧
    (flagWriter i = true → s.fault = none → t.fault = none → t.reg 15#4 = 0#8 ∨ t.reg 15#4 = 1#8)

/-- R40: only LD B and the block store write memory. -/
def Obligations.MemoryHasOnlyItsWriters : Prop :=
  ∀ (i : Instr) (s t : State), exec i s = .next t → (∀ x, i ≠ .ldBVx x) → (∀ x, i ≠ .ldMemVx x) →
    ∀ a, t.mem.read a = s.mem.read a

/-- R21: only CLS and DRW write the framebuffer. -/
def Obligations.FramebufferHasOnlyItsWriters : Prop :=
  ∀ (i : Instr) (s t : State), exec i s = .next t → i ≠ .cls → (∀ x y n, i ≠ .drw x y n) → t.fb = s.fb

/-- R13, R18: only LD I, ADD I and LD F write the index register; only CALL and RET change the call stack. -/
def Obligations.IndexAndStackHaveOnlyTheirWriters : Prop :=
  ∀ (i : Instr) (s t : State), exec i s = .next t →
    ((∀ nnn, i ≠ .ldINnn nnn) → (∀ x, i ≠ .addIVx x) → (∀ x, i ≠ .ldFVx x) → t.i = s.i) ∧
    ((∀ nnn, i ≠ .call nnn) → i ≠ .ret → t.stack = s.stack)

/-- R19, R20, R22: within a frame only LD DT writes the delay timer, only LD ST the sound timer, and no
instruction the key mask; no instruction starts a frame; only RND draws. -/
def Obligations.TimersAndKeysHaveOnlyTheirWriters : Prop :=
  ∀ (i : Instr) (s t : State), exec i s = .next t →
    ((∀ x, i ≠ .ldDtVx x) → t.dt = s.dt) ∧ ((∀ x, i ≠ .ldStVx x) → t.st = s.st) ∧
    t.keys = s.keys ∧ t.frames = s.frames ∧ ((∀ x nn, i ≠ .rnd x nn) → t.draws = s.draws)

/-- R15, R211: the table of where each operation leaves `pc`, each skip with its condition; a CALL on a full
stack, a RET on an empty one and a key skip past the keys fault and leave it as entered (D5, D13, D20). -/
def Obligations.PcAfterEveryInstruction : Prop :=
  ∀ (i : Instr) (s t : State), exec i s = .next t → pcAfter i s s.pc t.pc

/-- R20: no instruction reads the sound timer. Two runs that differ in it differ afterwards in nothing
else, costs apart (which may depend on the whole state, log 5), and it is carried or overwritten alike. -/
def Obligations.SoundTimerIsNeverRead : Prop :=
  ∀ (i : Instr) (s t : State) (v : Byte), exec i s = .next t →
    ∃ w c, exec i { s with st := v } = .next { t with st := w, budget := c } ∧ (w = v ∨ w = t.st)

/-- R195, R241: no value an instruction computes depends on the remaining budget or on any cost. -/
def Obligations.ValuesDoNotDependOnBudget : Prop :=
  ∀ (i : Instr) (s t : State) (b : Int), exec i s = .next t →
    ∃ c, exec i { s with budget := b } = .next { t with budget := c }

/-- R21: no instruction but DRW reads the framebuffer. -/
def Obligations.FramebufferIsReadOnlyByDraw : Prop :=
  ∀ (i : Instr) (s t : State) (fb : Framebuffer), exec i s = .next t → (∀ x y n, i ≠ .drw x y n) →
    ∃ fb' c, exec i { s with fb := fb } = .next { t with fb := fb', budget := c } ∧
      (fb' = fb ∨ fb' = t.fb)

/-- R194: every instruction that completes takes at least 1 from the budget; one that faults discards what
is left (D15, log 5). -/
def Obligations.EveryInstructionCostsAtLeastOne : Prop :=
  ∀ (i : Instr) (s t : State), exec i s = .next t →
    t.budget ≤ s.budget - 1 ∨ (t.fault ≠ none ∧ t.budget = 0)

/-- No step changes the OPEN parameters the machine was made with (00_scope.md R3). That the state carries
them is the model's (log 40). -/
def Obligations.StepKeepsParameters : Prop :=
  ∀ s t : State, step s = .next t → t.params = s.params
end

