-- ==== Sys2Proof/Laws/Display.lean ====
section
/-! SUPPORT. The blitter pixel by pixel (46_display.md R162): what one XORed byte and one sprite row do to
each pixel, and which of them clear a set pixel. -/

namespace Sys2Proof.Machine

theorem fbByte_xorByte (fb : Framebuffer) (j k : Nat) (b : Byte) :
    fbByte (xorByte fb j b) k = if k = j ∧ j < 256 then fbByte fb k ^^^ b else fbByte fb k := by
  unfold fbByte xorByte
  by_cases hk : k < 256
  · by_cases hj : j = k
    · subst hj; simp [hk, fbByte, Vector.getD]
    · simp [Vector.getD, hk, hj, Ne.symm hj]
  · have : ¬ (k = j ∧ j < 256) := by omega
    simp [Vector.getD, hk, this]

/-- A byte of the framebuffer in pixel row `r` and byte column `q`, XORed: the pixels it covers flip where
it has a bit. -/
theorem pixel_xorByte (fb : Framebuffer) {r q : Nat} (hr : r < 32) (hq : q < 8) (b : Byte) {c r' : Nat}
    (hc : c < 64) :
    pixel (xorByte fb (r * 8 + q) b) c r' =
      xor (pixel fb c r') (decide (r' = r ∧ c / 8 = q) && b.getLsbD (7 - c % 8)) := by
  unfold pixel
  rw [fbByte_xorByte]
  by_cases h : r' = r ∧ c / 8 = q
  · rw [if_pos (by omega)]
    simp [h]
  · rw [if_neg (by omega)]
    simp [h]

/-- A byte clears a set pixel when one of its bits lies on a set pixel. -/
theorem clears_iff (fb : Framebuffer) (r q : Nat) (b : Byte) :
    clears fb (r * 8 + q) b = true ↔
      ∃ k < 8, pixel fb (q * 8 + k) r = true ∧ b.getLsbD (7 - k) = true := by
  unfold clears pixel
  have hne : ∀ v : Byte, (v != 0#8) = true ↔ ∃ k < 8, v.getLsbD (7 - k) = true := by decide +revert
  rw [hne]
  constructor
  · rintro ⟨k, hk, h⟩
    refine ⟨k, hk, ?_⟩
    rw [show r * 8 + (q * 8 + k) / 8 = r * 8 + q by omega, show 7 - (q * 8 + k) % 8 = 7 - k by omega]
    simpa using h
  · rintro ⟨k, hk, h⟩
    refine ⟨k, hk, ?_⟩
    rw [show r * 8 + (q * 8 + k) / 8 = r * 8 + q by omega, show 7 - (q * 8 + k) % 8 = 7 - k by omega] at h
    simpa using h

/-- The bit of a sprite row that lands on pixel column `c` for the coordinate `vx`: bit `7 − j` where
`j` is the distance of `c` right of `vx`, modulo 64; none from the eighth column on. -/
def rowBit (vx b : Byte) (c : Nat) : Bool :=
  decide ((c + 64 - vx.toNat % 64) % 64 < 8) && b.getLsbD (7 - (c + 64 - vx.toNat % 64) % 64)

theorem getLsbD_left (vx b : Byte) {c : Nat} (hc : c < 64) (hq : c / 8 = drawColL vx) :
    (b >>> drawShift vx).getLsbD (7 - c % 8) = rowBit vx b c := by
  unfold drawColL drawShift rowBit at *
  simp only [BitVec.getLsbD_ushiftRight]
  by_cases h : vx.toNat % 8 ≤ c % 8
  · have h1 : (c + 64 - vx.toNat % 64) % 64 = c % 8 - vx.toNat % 8 := by omega
    rw [h1, decide_eq_true (by omega), Bool.true_and]
    congr 1
    omega
  · have h1 : ¬ (c + 64 - vx.toNat % 64) % 64 < 8 := by omega
    rw [decide_eq_false h1, Bool.false_and]
    exact BitVec.getLsbD_of_ge _ _ (by omega)

theorem getLsbD_right (vx b : Byte) {c : Nat} (hc : c < 64)
    (hq : c / 8 = drawColR vx) :
    (b <<< (8 - drawShift vx)).getLsbD (7 - c % 8) = rowBit vx b c := by
  unfold drawColR drawColL drawShift rowBit at *
  simp only [BitVec.getLsbD_shiftLeft]
  by_cases h : c % 8 < vx.toNat % 8
  · have h1 : (c + 64 - vx.toNat % 64) % 64 = 8 + c % 8 - vx.toNat % 8 := by omega
    rw [h1, decide_eq_true (by omega : 8 + c % 8 - vx.toNat % 8 < 8), decide_eq_true (by omega),
      decide_eq_false (by omega : ¬ 7 - c % 8 < 8 - vx.toNat % 8)]
    simp only [Bool.true_and, Bool.not_false]
    congr 1
    omega
  · have h1 : ¬ (c + 64 - vx.toNat % 64) % 64 < 8 := by omega
    rw [decide_eq_false h1, decide_eq_true (by omega : 7 - c % 8 < 8 - vx.toNat % 8)]
    simp

theorem rowBit_elsewhere (vx b : Byte) {c : Nat} (hc : c < 64) (hL : c / 8 ≠ drawColL vx)
    (hR : drawShift vx = 0 ∨ c / 8 ≠ drawColR vx) : rowBit vx b c = false := by
  unfold drawColR drawColL drawShift rowBit at *
  have h1 : ¬ (c + 64 - vx.toNat % 64) % 64 < 8 := by omega
  rw [decide_eq_false h1, Bool.false_and]

theorem drawRow_lt (vy : Byte) (row : Nat) : drawRow vy row < 32 := Nat.mod_lt _ (by decide)
theorem drawColL_lt (vx : Byte) : drawColL vx < 8 := Nat.mod_lt _ (by decide)
theorem drawColR_lt (vx : Byte) : drawColR vx < 8 := Nat.mod_lt _ (by decide)
theorem drawColL_ne_colR (vx : Byte) : drawColL vx ≠ drawColR vx := by
  unfold drawColR; have := drawColL_lt vx; omega

/-- One sprite row flips exactly the pixels of its pixel row under its set bits. -/
theorem pixel_drawSpriteRow (vx vy : Byte) (row : Nat) (b : Byte) (fb : Framebuffer) {c r : Nat}
    (hc : c < 64) :
    pixel (drawSpriteRow vx vy row b fb).1 c r =
      xor (pixel fb c r) (decide (r = drawRow vy row) && rowBit vx b c) := by
  have hr := drawRow_lt vy row
  have hL := drawColL_lt vx
  have hR := drawColR_lt vx
  have hLR := drawColL_ne_colR vx
  unfold drawSpriteRow
  by_cases hs : drawShift vx = 0
  · simp only [hs, if_true]
    rw [← hs, pixel_xorByte _ hr hL _ hc]
    by_cases hq : c / 8 = drawColL vx
    · simp [hq, getLsbD_left vx b hc hq]
    · simp [hq, rowBit_elsewhere vx b hc hq (.inl hs)]
  · simp only [hs, if_false]
    rw [pixel_xorByte _ hr hR _ hc, pixel_xorByte _ hr hL _ hc]
    by_cases hq : c / 8 = drawColL vx
    · have hq' : c / 8 ≠ drawColR vx := by omega
      simp [hq, hLR, getLsbD_left vx b hc hq]
    · by_cases hq' : c / 8 = drawColR vx
      · simp [hq', Ne.symm hLR, getLsbD_right vx b hc hq']
      · simp [hq, hq', rowBit_elsewhere vx b hc hq (.inr hq')]

/-- One sprite row reports a collision when one of its set bits lands on a set pixel. -/
theorem drawSpriteRow_hit (vx vy : Byte) (row : Nat) (b : Byte) (fb : Framebuffer) :
    (drawSpriteRow vx vy row b fb).2 = true ↔
      ∃ c < 64, pixel fb c (drawRow vy row) = true ∧ rowBit vx b c = true := by
  have hr := drawRow_lt vy row
  have hL := drawColL_lt vx
  have hR := drawColR_lt vx
  have hLR := drawColL_ne_colR vx
  have colOf : ∀ q k : Nat, k < 8 → (q * 8 + k) / 8 = q ∧ (q * 8 + k) % 8 = k := by omega
  have left : clears fb (drawRow vy row * 8 + drawColL vx) (b >>> drawShift vx) = true ↔
      ∃ c < 64, c / 8 = drawColL vx ∧ pixel fb c (drawRow vy row) = true ∧ rowBit vx b c = true := by
    rw [clears_iff]
    constructor
    · rintro ⟨k, hk, hp, hb⟩
      refine ⟨drawColL vx * 8 + k, by omega, (colOf _ k hk).1, hp, ?_⟩
      rw [← getLsbD_left vx b (by omega) (colOf _ k hk).1, (colOf _ k hk).2]
      exact hb
    · rintro ⟨c, hc, hq, hp, hb⟩
      refine ⟨c % 8, Nat.mod_lt _ (by decide), ?_, ?_⟩
      · rw [show drawColL vx * 8 + c % 8 = c by omega]; exact hp
      · rw [getLsbD_left vx b hc hq]; exact hb
  unfold drawSpriteRow
  by_cases hs : drawShift vx = 0
  · simp only [hs, if_true]
    rw [← hs, left]
    constructor
    · rintro ⟨c, hc, -, h⟩; exact ⟨c, hc, h⟩
    · rintro ⟨c, hc, hp, hb⟩
      refine ⟨c, hc, ?_, hp, hb⟩
      by_contra hq
      rw [rowBit_elsewhere vx b hc hq (.inl hs)] at hb
      cases hb
  · simp only [hs, if_false, Bool.or_eq_true, left]
    have right : clears (xorByte fb (drawRow vy row * 8 + drawColL vx) (b >>> drawShift vx))
          (drawRow vy row * 8 + drawColR vx) (b <<< (8 - drawShift vx)) = true ↔
        ∃ c < 64, c / 8 = drawColR vx ∧ pixel fb c (drawRow vy row) = true ∧ rowBit vx b c = true := by
      have same : ∀ c, c < 64 → c / 8 = drawColR vx →
          pixel (xorByte fb (drawRow vy row * 8 + drawColL vx) (b >>> drawShift vx)) c (drawRow vy row) =
            pixel fb c (drawRow vy row) := by
        intro c hc hq
        rw [pixel_xorByte _ hr hL _ hc]
        simp [hq, Ne.symm hLR]
      rw [clears_iff]
      constructor
      · rintro ⟨k, hk, hp, hb⟩
        have hc : drawColR vx * 8 + k < 64 := by omega
        refine ⟨drawColR vx * 8 + k, hc, (colOf _ k hk).1, ?_, ?_⟩
        · rw [← same _ hc (colOf _ k hk).1]; exact hp
        · rw [← getLsbD_right vx b hc (colOf _ k hk).1, (colOf _ k hk).2]; exact hb
      · rintro ⟨c, hc, hq, hp, hb⟩
        refine ⟨c % 8, Nat.mod_lt _ (by decide), ?_, ?_⟩
        · rw [show drawColR vx * 8 + c % 8 = c by omega, same c hc hq]; exact hp
        · rw [getLsbD_right vx b hc hq]; exact hb
    rw [right]
    constructor
    · rintro (⟨c, hc, -, h⟩ | ⟨c, hc, -, h⟩) <;> exact ⟨c, hc, h⟩
    · rintro ⟨c, hc, hp, hb⟩
      by_cases hq : c / 8 = drawColL vx
      · exact .inl ⟨c, hc, hq, hp, hb⟩
      · by_cases hq' : c / 8 = drawColR vx
        · exact .inr ⟨c, hc, hq', hp, hb⟩
        · rw [rowBit_elsewhere vx b hc hq (.inr hq')] at hb
          cases hb

end Sys2Proof.Machine
end

