-- ==== Sys2Proof/Laws/Memory.lean ====
section
/-! SUPPORT. The laws of the memory array (20_memory.md R48): a read gives the last value written, a write
leaves every other byte alone, and every memory operation keeps the canonical form. -/

namespace Sys2Proof.Machine

@[simp] theorem Memory.read_nil (a : Nat) : Memory.read [] a = unlistedByte a := rfl

theorem Memory.read_cellFor_append (m : Memory) (a : Nat) (v : Byte) (b : Nat) :
    Memory.read (cellFor a v ++ m) b =
      if b = a ∧ v ≠ unlistedByte a then v else Memory.read m b := by
  unfold cellFor
  split
  · next h => simp [h]
  · next h =>
    simp only [List.singleton_append, Memory.read]
    by_cases hb : b = a <;> simp [hb, h]

/-- What the canonical form says of its first entry. -/
theorem Memory.wfFrom_cons {lo b : Nat} {v : Byte} {m : Memory} :
    Memory.wfFrom lo ((b, v) :: m) = true ↔
      lo ≤ b ∧ b < memSize ∧ v ≠ unlistedByte b ∧ Memory.wfFrom (b + 1) m = true := by
  simp [Memory.wfFrom, and_assoc]

theorem Memory.wfFrom_mono {lo lo' : Nat} {m : Memory} (h : lo' ≤ lo) (hm : m.wfFrom lo = true) :
    m.wfFrom lo' = true := by
  cases m with
  | nil => rfl
  | cons c m =>
    obtain ⟨h1, h2⟩ := Memory.wfFrom_cons.1 hm
    exact Memory.wfFrom_cons.2 ⟨le_trans h h1, h2⟩

/-- An address below everything listed reads as unlisted. -/
theorem Memory.read_of_lt {lo a : Nat} {m : Memory} (hm : m.wfFrom lo = true) (ha : a < lo) :
    m.read a = unlistedByte a := by
  induction m generalizing lo with
  | nil => rfl
  | cons c m ih =>
    obtain ⟨b, v⟩ := c
    obtain ⟨h1, -, -, h4⟩ := Memory.wfFrom_cons.1 hm
    have hne : a ≠ b := by omega
    simp only [Memory.read, hne, if_false]
    exact ih h4 (by omega)

theorem Memory.read_cellFor_append_ne (m : Memory) {a b : Nat} (v : Byte) (h : b ≠ a) :
    Memory.read (cellFor a v ++ m) b = Memory.read m b := by
  simp [Memory.read_cellFor_append, h]

theorem Memory.read_cellFor_append_same {m : Memory} {a : Nat} (v : Byte)
    (h : m.read a = unlistedByte a) : Memory.read (cellFor a v ++ m) a = v := by
  rw [Memory.read_cellFor_append]
  split
  · rfl
  · next hn => rw [h]; simp at hn; exact hn.symm

/-- A write leaves every other address alone. -/
theorem Memory.read_write_ne (m : Memory) {a b : Nat} (v : Byte) (h : b ≠ a) :
    (m.write a v).read b = m.read b := by
  induction m with
  | nil =>
    have := Memory.read_cellFor_append_ne [] v h
    simpa [Memory.write] using this
  | cons c m ih =>
    obtain ⟨c, u⟩ := c
    simp only [Memory.write]
    split
    · exact Memory.read_cellFor_append_ne _ v h
    · split
      · next hc =>
        have hne : b ≠ c := by omega
        rw [Memory.read_cellFor_append_ne _ v h]
        simp [Memory.read, hne]
      · simp only [Memory.read, ih]

theorem Memory.read_write_same_from {lo : Nat} {m : Memory} (hm : m.wfFrom lo = true) (a : Nat)
    (v : Byte) : (m.write a v).read a = v := by
  induction m generalizing lo with
  | nil =>
    have := Memory.read_cellFor_append_same (m := []) (a := a) v rfl
    simpa [Memory.write] using this
  | cons c m ih =>
    obtain ⟨c, u⟩ := c
    obtain ⟨h1, h2, h3, h4⟩ := Memory.wfFrom_cons.1 hm
    simp only [Memory.write]
    split
    · next hlt =>
      exact Memory.read_cellFor_append_same v
        (Memory.read_of_lt (Memory.wfFrom_cons.2 ⟨le_refl c, h2, h3, h4⟩) hlt)
    · split
      · exact Memory.read_cellFor_append_same v (Memory.read_of_lt h4 (by omega))
      · next hne =>
        simp only [Memory.read, hne, if_false]
        exact ih h4

/-- In canonical memory a read gives the value written. -/
theorem Memory.read_write_same {m : Memory} (hm : m.wf = true) (a : Nat) (v : Byte) :
    (m.write a v).read a = v := Memory.read_write_same_from hm a v

theorem Memory.wfFrom_cellFor_append {lo a : Nat} {m : Memory} (v : Byte) (hlo : lo ≤ a)
    (ha : a < memSize) (hm : m.wfFrom (a + 1) = true) :
    Memory.wfFrom lo (cellFor a v ++ m) = true := by
  unfold cellFor
  split
  · exact Memory.wfFrom_mono (by omega) hm
  · next h => exact Memory.wfFrom_cons.2 ⟨hlo, ha, h, hm⟩

theorem Memory.wfFrom_write {lo a : Nat} {m : Memory} (v : Byte) (hm : m.wfFrom lo = true)
    (hlo : lo ≤ a) (ha : a < memSize) : (m.write a v).wfFrom lo = true := by
  induction m generalizing lo with
  | nil =>
    have := Memory.wfFrom_cellFor_append (m := []) v hlo ha rfl
    simpa [Memory.write] using this
  | cons c m ih =>
    obtain ⟨c, u⟩ := c
    obtain ⟨h1, h2, h3, h4⟩ := Memory.wfFrom_cons.1 hm
    simp only [Memory.write]
    split
    · next hlt =>
      exact Memory.wfFrom_cellFor_append v hlo ha
        (Memory.wfFrom_cons.2 ⟨by omega, h2, h3, h4⟩)
    · split
      · next heq => subst heq; exact Memory.wfFrom_cellFor_append v hlo ha h4
      · exact Memory.wfFrom_cons.2 ⟨h1, h2, h3, ih h4 (by omega)⟩

/-- A write keeps the canonical form. -/
theorem Memory.wf_write {m : Memory} (hm : m.wf = true) {a : Nat} (ha : a < memSize) (v : Byte) :
    (m.write a v).wf = true := Memory.wfFrom_write v hm (Nat.zero_le a) ha

/-- Loading a list of bytes that fits keeps the canonical form. -/
theorem Memory.wf_load {m : Memory} (hm : m.wf = true) (bs : List Byte) {a : Nat}
    (h : a + bs.length ≤ memSize) : (m.load a bs).wf = true := by
  induction bs generalizing m a with
  | nil => exact hm
  | cons b bs ih =>
    simp only [List.length_cons] at h
    exact ih (Memory.wf_write hm (by omega) b) (by omega)

/-- Loading leaves every address outside the range alone. -/
theorem Memory.read_load_outside (m : Memory) (bs : List Byte) {a k : Nat}
    (h : k < a ∨ a + bs.length ≤ k) : (m.load a bs).read k = m.read k := by
  induction bs generalizing m a with
  | nil => rfl
  | cons b bs ih =>
    simp only [List.length_cons] at h
    rw [Memory.load, ih (m.write a b) (by omega), Memory.read_write_ne m b (by omega)]

/-- In canonical memory an address inside the range reads the byte loaded there. -/
theorem Memory.read_load_inside {m : Memory} (hm : m.wf = true) (bs : List Byte) {a : Nat}
    (h : a + bs.length ≤ memSize) {j : Nat} (hj : j < bs.length) :
    (m.load a bs).read (a + j) = bs[j] := by
  induction bs generalizing m a j with
  | nil => simp at hj
  | cons b bs ih =>
    simp only [List.length_cons] at h hj
    rw [Memory.load]
    cases j with
    | zero =>
      rw [Memory.read_load_outside _ _ (by omega)]
      exact Memory.read_write_same hm a b
    | succ j =>
      have := ih (Memory.wf_write hm (a := a) (by omega) b) (a := a + 1) (by omega) (j := j) (by omega)
      rw [show a + (j + 1) = a + 1 + j by omega, this]
      rfl

/-- The reset memory, which lists nothing, is canonical. -/
theorem Memory.wf_nil : Memory.wf [] = true := rfl

end Sys2Proof.Machine
end

