-- ==== Sys2Proof/Laws/State.lean ====
section
/-! SUPPORT. One lemma per field per update of the state, true by `rfl`, and the registers after an
update, so that no proof unfolds a record update. -/

namespace Sys2Proof.Machine

/-! ### `setReg` -/

@[simp] theorem State.setReg_mem (s : State) (k : RegIdx) (v : Byte) :
    (s.setReg k v).mem = s.mem := rfl
@[simp] theorem State.setReg_regs (s : State) (k : RegIdx) (v : Byte) :
    (s.setReg k v).regs = s.regs.set k.toNat v k.isLt := rfl
@[simp] theorem State.setReg_i (s : State) (k : RegIdx) (v : Byte) :
    (s.setReg k v).i = s.i := rfl
@[simp] theorem State.setReg_pc (s : State) (k : RegIdx) (v : Byte) :
    (s.setReg k v).pc = s.pc := rfl
@[simp] theorem State.setReg_stack (s : State) (k : RegIdx) (v : Byte) :
    (s.setReg k v).stack = s.stack := rfl
@[simp] theorem State.setReg_dt (s : State) (k : RegIdx) (v : Byte) :
    (s.setReg k v).dt = s.dt := rfl
@[simp] theorem State.setReg_st (s : State) (k : RegIdx) (v : Byte) :
    (s.setReg k v).st = s.st := rfl
@[simp] theorem State.setReg_fb (s : State) (k : RegIdx) (v : Byte) :
    (s.setReg k v).fb = s.fb := rfl
@[simp] theorem State.setReg_keys (s : State) (k : RegIdx) (v : Byte) :
    (s.setReg k v).keys = s.keys := rfl
@[simp] theorem State.setReg_budget (s : State) (k : RegIdx) (v : Byte) :
    (s.setReg k v).budget = s.budget := rfl
@[simp] theorem State.setReg_fault (s : State) (k : RegIdx) (v : Byte) :
    (s.setReg k v).fault = s.fault := rfl
@[simp] theorem State.setReg_frames (s : State) (k : RegIdx) (v : Byte) :
    (s.setReg k v).frames = s.frames := rfl
@[simp] theorem State.setReg_draws (s : State) (k : RegIdx) (v : Byte) :
    (s.setReg k v).draws = s.draws := rfl
@[simp] theorem State.setReg_params (s : State) (k : RegIdx) (v : Byte) :
    (s.setReg k v).params = s.params := rfl

/-! ### `setResultFlag` -/

@[simp] theorem State.setResultFlag_mem (s : State) (k : RegIdx) (v flag : Byte) :
    (s.setResultFlag k v flag).mem = s.mem := rfl
@[simp] theorem State.setResultFlag_regs (s : State) (k : RegIdx) (v flag : Byte) :
    (s.setResultFlag k v flag).regs = ((s.setReg k v).setReg flagReg flag).regs := rfl
@[simp] theorem State.setResultFlag_i (s : State) (k : RegIdx) (v flag : Byte) :
    (s.setResultFlag k v flag).i = s.i := rfl
@[simp] theorem State.setResultFlag_pc (s : State) (k : RegIdx) (v flag : Byte) :
    (s.setResultFlag k v flag).pc = s.pc := rfl
@[simp] theorem State.setResultFlag_stack (s : State) (k : RegIdx) (v flag : Byte) :
    (s.setResultFlag k v flag).stack = s.stack := rfl
@[simp] theorem State.setResultFlag_dt (s : State) (k : RegIdx) (v flag : Byte) :
    (s.setResultFlag k v flag).dt = s.dt := rfl
@[simp] theorem State.setResultFlag_st (s : State) (k : RegIdx) (v flag : Byte) :
    (s.setResultFlag k v flag).st = s.st := rfl
@[simp] theorem State.setResultFlag_fb (s : State) (k : RegIdx) (v flag : Byte) :
    (s.setResultFlag k v flag).fb = s.fb := rfl
@[simp] theorem State.setResultFlag_keys (s : State) (k : RegIdx) (v flag : Byte) :
    (s.setResultFlag k v flag).keys = s.keys := rfl
@[simp] theorem State.setResultFlag_budget (s : State) (k : RegIdx) (v flag : Byte) :
    (s.setResultFlag k v flag).budget = s.budget := rfl
@[simp] theorem State.setResultFlag_fault (s : State) (k : RegIdx) (v flag : Byte) :
    (s.setResultFlag k v flag).fault = s.fault := rfl
@[simp] theorem State.setResultFlag_frames (s : State) (k : RegIdx) (v flag : Byte) :
    (s.setResultFlag k v flag).frames = s.frames := rfl
@[simp] theorem State.setResultFlag_draws (s : State) (k : RegIdx) (v flag : Byte) :
    (s.setResultFlag k v flag).draws = s.draws := rfl
@[simp] theorem State.setResultFlag_params (s : State) (k : RegIdx) (v flag : Byte) :
    (s.setResultFlag k v flag).params = s.params := rfl

/-! ### `setI` -/

@[simp] theorem State.setI_mem (s : State) (v : Word) :
    (s.setI v).mem = s.mem := rfl
@[simp] theorem State.setI_regs (s : State) (v : Word) :
    (s.setI v).regs = s.regs := rfl
@[simp] theorem State.setI_i (s : State) (v : Word) :
    (s.setI v).i = v := rfl
@[simp] theorem State.setI_pc (s : State) (v : Word) :
    (s.setI v).pc = s.pc := rfl
@[simp] theorem State.setI_stack (s : State) (v : Word) :
    (s.setI v).stack = s.stack := rfl
@[simp] theorem State.setI_dt (s : State) (v : Word) :
    (s.setI v).dt = s.dt := rfl
@[simp] theorem State.setI_st (s : State) (v : Word) :
    (s.setI v).st = s.st := rfl
@[simp] theorem State.setI_fb (s : State) (v : Word) :
    (s.setI v).fb = s.fb := rfl
@[simp] theorem State.setI_keys (s : State) (v : Word) :
    (s.setI v).keys = s.keys := rfl
@[simp] theorem State.setI_budget (s : State) (v : Word) :
    (s.setI v).budget = s.budget := rfl
@[simp] theorem State.setI_fault (s : State) (v : Word) :
    (s.setI v).fault = s.fault := rfl
@[simp] theorem State.setI_frames (s : State) (v : Word) :
    (s.setI v).frames = s.frames := rfl
@[simp] theorem State.setI_draws (s : State) (v : Word) :
    (s.setI v).draws = s.draws := rfl
@[simp] theorem State.setI_params (s : State) (v : Word) :
    (s.setI v).params = s.params := rfl

/-! ### `setPc` -/

@[simp] theorem State.setPc_mem (s : State) (v : Word) :
    (s.setPc v).mem = s.mem := rfl
@[simp] theorem State.setPc_regs (s : State) (v : Word) :
    (s.setPc v).regs = s.regs := rfl
@[simp] theorem State.setPc_i (s : State) (v : Word) :
    (s.setPc v).i = s.i := rfl
@[simp] theorem State.setPc_pc (s : State) (v : Word) :
    (s.setPc v).pc = v := rfl
@[simp] theorem State.setPc_stack (s : State) (v : Word) :
    (s.setPc v).stack = s.stack := rfl
@[simp] theorem State.setPc_dt (s : State) (v : Word) :
    (s.setPc v).dt = s.dt := rfl
@[simp] theorem State.setPc_st (s : State) (v : Word) :
    (s.setPc v).st = s.st := rfl
@[simp] theorem State.setPc_fb (s : State) (v : Word) :
    (s.setPc v).fb = s.fb := rfl
@[simp] theorem State.setPc_keys (s : State) (v : Word) :
    (s.setPc v).keys = s.keys := rfl
@[simp] theorem State.setPc_budget (s : State) (v : Word) :
    (s.setPc v).budget = s.budget := rfl
@[simp] theorem State.setPc_fault (s : State) (v : Word) :
    (s.setPc v).fault = s.fault := rfl
@[simp] theorem State.setPc_frames (s : State) (v : Word) :
    (s.setPc v).frames = s.frames := rfl
@[simp] theorem State.setPc_draws (s : State) (v : Word) :
    (s.setPc v).draws = s.draws := rfl
@[simp] theorem State.setPc_params (s : State) (v : Word) :
    (s.setPc v).params = s.params := rfl

/-! ### `charge` -/

@[simp] theorem State.charge_mem (s : State) (c : Nat) :
    (s.charge c).mem = s.mem := rfl
@[simp] theorem State.charge_regs (s : State) (c : Nat) :
    (s.charge c).regs = s.regs := rfl
@[simp] theorem State.charge_i (s : State) (c : Nat) :
    (s.charge c).i = s.i := rfl
@[simp] theorem State.charge_pc (s : State) (c : Nat) :
    (s.charge c).pc = s.pc := rfl
@[simp] theorem State.charge_stack (s : State) (c : Nat) :
    (s.charge c).stack = s.stack := rfl
@[simp] theorem State.charge_dt (s : State) (c : Nat) :
    (s.charge c).dt = s.dt := rfl
@[simp] theorem State.charge_st (s : State) (c : Nat) :
    (s.charge c).st = s.st := rfl
@[simp] theorem State.charge_fb (s : State) (c : Nat) :
    (s.charge c).fb = s.fb := rfl
@[simp] theorem State.charge_keys (s : State) (c : Nat) :
    (s.charge c).keys = s.keys := rfl
@[simp] theorem State.charge_budget (s : State) (c : Nat) :
    (s.charge c).budget = s.budget - c := rfl
@[simp] theorem State.charge_fault (s : State) (c : Nat) :
    (s.charge c).fault = s.fault := rfl
@[simp] theorem State.charge_frames (s : State) (c : Nat) :
    (s.charge c).frames = s.frames := rfl
@[simp] theorem State.charge_draws (s : State) (c : Nat) :
    (s.charge c).draws = s.draws := rfl
@[simp] theorem State.charge_params (s : State) (c : Nat) :
    (s.charge c).params = s.params := rfl

/-! ### `drawByte` -/

@[simp] theorem State.drawByte_fst (s : State) : s.drawByte.1 = Config.rand8 s.draws := rfl
@[simp] theorem State.drawByte_mem (s : State) : s.drawByte.2.mem = s.mem := rfl
@[simp] theorem State.drawByte_regs (s : State) : s.drawByte.2.regs = s.regs := rfl
@[simp] theorem State.drawByte_i (s : State) : s.drawByte.2.i = s.i := rfl
@[simp] theorem State.drawByte_pc (s : State) : s.drawByte.2.pc = s.pc := rfl
@[simp] theorem State.drawByte_stack (s : State) : s.drawByte.2.stack = s.stack := rfl
@[simp] theorem State.drawByte_dt (s : State) : s.drawByte.2.dt = s.dt := rfl
@[simp] theorem State.drawByte_st (s : State) : s.drawByte.2.st = s.st := rfl
@[simp] theorem State.drawByte_fb (s : State) : s.drawByte.2.fb = s.fb := rfl
@[simp] theorem State.drawByte_keys (s : State) : s.drawByte.2.keys = s.keys := rfl
@[simp] theorem State.drawByte_budget (s : State) : s.drawByte.2.budget = s.budget := rfl
@[simp] theorem State.drawByte_fault (s : State) : s.drawByte.2.fault = s.fault := rfl
@[simp] theorem State.drawByte_frames (s : State) : s.drawByte.2.frames = s.frames := rfl
@[simp] theorem State.drawByte_draws (s : State) : s.drawByte.2.draws = s.draws + 1 := rfl
@[simp] theorem State.drawByte_params (s : State) : s.drawByte.2.params = s.params := rfl

/-! ### `enterFrame` -/

@[simp] theorem State.enterFrame_mem (s : State) : s.enterFrame.mem = s.mem := rfl
@[simp] theorem State.enterFrame_regs (s : State) : s.enterFrame.regs = s.regs := rfl
@[simp] theorem State.enterFrame_i (s : State) : s.enterFrame.i = s.i := rfl
@[simp] theorem State.enterFrame_pc (s : State) : s.enterFrame.pc = s.pc := rfl
@[simp] theorem State.enterFrame_stack (s : State) : s.enterFrame.stack = s.stack := rfl
theorem State.enterFrame_dt (s : State) :
    s.enterFrame.dt = (if s.frameDue then tick s.dt else s.dt) := rfl
theorem State.enterFrame_st (s : State) :
    s.enterFrame.st = (if s.frameDue then tick s.st else s.st) := rfl
@[simp] theorem State.enterFrame_fb (s : State) : s.enterFrame.fb = s.fb := rfl
theorem State.enterFrame_keys (s : State) :
    s.enterFrame.keys = (if s.frameDue then Config.hostKeys s.frames else s.keys) := rfl
theorem State.enterFrame_budget (s : State) :
    s.enterFrame.budget = (if s.frameDue then (frameBudget : Int) else s.budget) := rfl
@[simp] theorem State.enterFrame_fault (s : State) : s.enterFrame.fault = s.fault := rfl
theorem State.enterFrame_frames (s : State) :
    s.enterFrame.frames = (if s.frameDue then s.frames + 1 else s.frames) := rfl
@[simp] theorem State.enterFrame_draws (s : State) : s.enterFrame.draws = s.draws := rfl
@[simp] theorem State.enterFrame_params (s : State) : s.enterFrame.params = s.params := rfl

/-! ### Registers after an update -/

@[simp] theorem State.reg_setReg_same (s : State) (k : RegIdx) (v : Byte) : (s.setReg k v).reg k = v := by
  simp [State.reg]

theorem State.reg_setReg_ne (s : State) {j k : RegIdx} (v : Byte) (h : j ≠ k) :
    (s.setReg k v).reg j = s.reg j := by
  have hn : ¬ k.toNat = j.toNat := fun e => h (BitVec.eq_of_toNat_eq e.symm)
  simp [State.reg, hn]

/-- A register after one was written: the one written, or as before. -/
theorem State.reg_setReg (s : State) (j k : RegIdx) (v : Byte) :
    (s.setReg k v).reg j = if j = k then v else s.reg j := by
  split
  · next h => subst h; exact s.reg_setReg_same j v
  · next h => exact s.reg_setReg_ne v h

/-- A register after a result and a flag: the flag register holds the flag whatever the destination. -/
theorem State.reg_setResultFlag (s : State) (j k : RegIdx) (v flag : Byte) :
    (s.setResultFlag k v flag).reg j =
      if j = flagReg then flag else if j = k then v else s.reg j := by
  simp only [State.setResultFlag, State.reg_setReg]

@[simp] theorem State.reg_setI (s : State) (v : Word) (k : RegIdx) : (s.setI v).reg k = s.reg k := rfl
@[simp] theorem State.reg_setPc (s : State) (v : Word) (k : RegIdx) : (s.setPc v).reg k = s.reg k := rfl
@[simp] theorem State.reg_charge (s : State) (c : Nat) (k : RegIdx) : (s.charge c).reg k = s.reg k := rfl
@[simp] theorem State.reg_drawByte (s : State) (k : RegIdx) : s.drawByte.2.reg k = s.reg k := rfl
@[simp] theorem State.reg_enterFrame (s : State) (k : RegIdx) : s.enterFrame.reg k = s.reg k := rfl

/-- Two states with the same registers read the same. -/
theorem State.reg_congr {s t : State} (h : t.regs = s.regs) (k : RegIdx) : t.reg k = s.reg k := by
  simp only [State.reg, h]

end Sys2Proof.Machine
end

