-- ==== Sys2Proof/Laws/Ops.lean ====
section
/-! SUPPORT. One specification lemma per shared operation: everything the operation can answer. -/

namespace Sys2Proof.Machine

/-! ## The call stack (10_state.md R18) -/

/-- A push on a stack with room. -/
theorem State.push_room {s : State} (v : Word) (h : s.stack.length < s.params.stackDepth) :
    s.push v = .ok { s with stack := s.stack ++ [v] } := by
  simp [State.push, h]

/-- A push on a full stack. -/
theorem State.push_full {s : State} (v : Word) (h : s.params.stackDepth ≤ s.stack.length) :
    s.push v = .error .stackOverflow := by
  simp [State.push, Nat.not_lt.2 h]

/-- A pop takes the entry pushed last. -/
theorem State.pop_append {s : State} {vs : List Word} {v : Word} (h : s.stack = vs ++ [v]) :
    s.pop = .ok (v, { s with stack := vs }) := by
  simp [State.pop, h]

/-- A pop of the empty stack. -/
theorem State.pop_empty {s : State} (h : s.stack = []) : s.pop = .error .stackUnderflow := by
  simp [State.pop, h]

/-! ## The parameters (00_scope.md R3) -/

/-- Where `SHIFT_SOURCE` is `X`, a shift reads the register of `X`. -/
theorem State.shiftOperand_x {s : State} (x y : RegIdx) (h : s.params.shiftSource = .x) :
    s.shiftOperand x y = s.reg x := by
  simp [State.shiftOperand, shiftOperandOf, h]

/-- Where `SHIFT_SOURCE` is `Y`, a shift reads the register of `Y`. -/
theorem State.shiftOperand_y {s : State} (x y : RegIdx) (h : s.params.shiftSource = .y) :
    s.shiftOperand x y = s.reg y := by
  simp [State.shiftOperand, shiftOperandOf, h]

@[simp] theorem newMachine_params (p : Params) (font : Vector Byte 80) : (newMachine p font).params = p := rfl
@[simp] theorem newMachine_mem (p : Params) (font : Vector Byte 80) :
    (newMachine p font).mem = Memory.load [] 0 font.toList := rfl

/-- A new machine's memory is canonical, whatever its font. -/
theorem newMachine_mem_wf (p : Params) (font : Vector Byte 80) : (newMachine p font).mem.wf = true :=
  Memory.wf_load rfl _ (by simp [memSize])

/-! ## Memory transfers (20_memory.md R43, R46) -/

/-- A block read is the bytes of memory when it lies in memory, and otherwise the fault at its first
address above 4095. -/
theorem State.readBytes_eq (s : State) (a n : Nat) :
    s.readBytes a n =
      if n = 0 ∨ a + n ≤ memSize then .ok ((List.range' a n).map s.mem.read)
      else .error (.memoryOutOfRange (max a memSize)) := by
  induction n generalizing a with
  | zero => simp [State.readBytes]
  | succ n ih =>
    simp only [State.readBytes, State.memRead]
    by_cases ha : a < memSize
    · rw [if_pos ha, ih (a + 1)]
      by_cases hn : n = 0 ∨ a + 1 + n ≤ memSize
      · rw [if_pos hn, if_pos (by omega)]
        simp [List.range'_succ]
      · rw [if_neg hn, if_neg (by omega)]
        simp only [Except.error.injEq, Fault.memoryOutOfRange.injEq]
        omega
    · rw [if_neg ha, if_neg (by omega)]
      simp only [Except.error.injEq, Fault.memoryOutOfRange.injEq]
      omega

/-- A block write loads the bytes when it lies in memory, and otherwise is the fault at its first address
above 4095. -/
theorem State.writeBytes_eq (s : State) (a : Nat) (bs : List Byte) :
    s.writeBytes a bs =
      if bs = [] ∨ a + bs.length ≤ memSize then .ok { s with mem := s.mem.load a bs }
      else .error (.memoryOutOfRange (max a memSize)) := by
  induction bs generalizing a s with
  | nil => simp [State.writeBytes, Memory.load]
  | cons b bs ih =>
    simp only [State.writeBytes, State.memWrite, List.length_cons]
    by_cases ha : a < memSize
    · rw [if_pos ha]
      simp only []
      rw [ih]
      by_cases hn : bs = [] ∨ a + 1 + bs.length ≤ memSize
      · rw [if_pos hn, if_pos]
        · simp [Memory.load]
        · rcases hn with rfl | hn
          · simp; omega
          · right; omega
      · rw [if_neg hn, if_neg]
        · simp only [Except.error.injEq, Fault.memoryOutOfRange.injEq]
          omega
        · simp only [reduceCtorEq, false_or]
          push Not at hn
          omega
    · rw [if_neg ha, if_neg (by simp; omega)]
      simp only [Except.error.injEq, Fault.memoryOutOfRange.injEq]
      omega

/-! ## Blocks of registers (44_index_memory.md R144, R145) -/

/-- The block `x[0]` to `x[k]` has `k + 1` bytes. -/
@[simp] theorem State.length_regsUpTo (s : State) (k : RegIdx) : (s.regsUpTo k).length = k.toNat + 1 := by
  have := k.isLt
  simp [State.regsUpTo]
  omega

/-- Byte `j` of the block is register `j`. -/
theorem State.getElem_regsUpTo (s : State) (k j : RegIdx) (h : j.toNat < (s.regsUpTo k).length) :
    (s.regsUpTo k)[j.toNat] = s.reg j := by
  simp [State.regsUpTo, State.reg]

theorem fillRegs_getElem (regs : Vector Byte 16) (k : Nat) (bs : List Byte) (j : Nat) (hj : j < 16) :
    (fillRegs regs k bs)[j] =
      if h : k ≤ j ∧ j < k + bs.length then bs[j - k]'(by omega) else regs[j] := by
  induction bs generalizing regs k with
  | nil => simp [fillRegs]
  | cons b bs ih =>
    rw [fillRegs, ih]
    simp only [List.length_cons]
    by_cases hkj : k = j
    · subst hkj
      simp
    · by_cases h : k + 1 ≤ j ∧ j < k + 1 + bs.length
      · rw [dif_pos h, dif_pos (by omega)]
        simp only [show j - k = (j - (k + 1)) + 1 by omega, List.getElem_cons_succ]
      · rw [dif_neg h, dif_neg (by omega)]
        simp [hkj]

/-! ## Skips and single results -/

/-- A skip answers a next state in which only `pc` and the budget differ. -/
theorem skipIf_eq (taken : Bool) (cost : Nat) (s : State) :
    skipIf taken cost s =
      .next { s with pc := if taken then s.pc + 2#16 else s.pc, budget := s.budget - cost } := rfl

/-- A key skip with a key number: a skip on whether the key is held as wanted. -/
theorem keySkip_key {x : RegIdx} {s : State} (held : Bool) (h : (s.reg x).toNat ≤ 15) :
    keySkip x held s = skipIf (s.keyHeld (s.reg x).toNat == held)
      (keySkipCost (s.keyHeld (s.reg x).toNat == held)) s := by
  simp [keySkip, State.keyIndex, h]

/-- A key skip with a value that is no key number. -/
theorem keySkip_noKey {x : RegIdx} {s : State} (held : Bool) (h : 15 < (s.reg x).toNat) :
    keySkip x held s = raise (.keyIndexOutOfRange (s.reg x)) s := by
  simp [keySkip, State.keyIndex, Nat.not_le.2 h]

/-- A store at `I` that lies in memory. -/
theorem storeAtIndex_inside {i : Instr} {bs : List Byte} {s : State}
    (h : s.i.toNat + bs.length ≤ memSize) :
    storeAtIndex i bs s =
      .next { s with mem := s.mem.load s.i.toNat bs, budget := s.budget - openCost i s } := by
  simp [storeAtIndex, State.indexAddr, State.writeBytes_eq, h, State.charge]

/-- A store at `I` that leaves memory: the fault, with nothing stored. -/
theorem storeAtIndex_outside {i : Instr} {bs : List Byte} {s : State} (hne : bs ≠ [])
    (h : memSize < s.i.toNat + bs.length) :
    storeAtIndex i bs s = raise (.memoryOutOfRange (max s.i.toNat memSize)) s := by
  simp [storeAtIndex, State.indexAddr, State.writeBytes_eq, hne, Nat.not_le.2 h]

/-- Taking a fault answers a next state that records it. -/
theorem raise_eq (f : Fault) (s : State) : raise f s = .next { s with fault := some f, budget := 0 } := rfl

/-! ## The keys -/

/-- The least key held: it is held, and no key below it is (47_timers_keywait.md R173). -/
theorem lowestKey_spec {keys : Word} (h : keys ≠ 0#16) :
    keys.getLsbD (lowestKey keys) = true ∧ ∀ j < lowestKey keys, keys.getLsbD j = false := by
  unfold lowestKey
  cases hf : (List.range 16).find? (fun k => keys.getLsbD k) with
  | none =>
    exfalso
    apply h
    apply BitVec.eq_of_getLsbD_eq
    intro k hk
    have := List.find?_eq_none.1 hf k (by simpa using hk)
    simpa using this
  | some k =>
    obtain ⟨hk, as, bs, happ, hbefore⟩ := List.find?_eq_some_iff_append.1 hf
    refine ⟨by simpa using hk, fun j hj => ?_⟩
    simp only [Option.getD_some] at hj
    have hlen : as.length = k := by
      have h1 : (List.range 16)[as.length]? = some k := by simp [happ]
      have h2 := List.getElem?_eq_some_iff.1 h1
      obtain ⟨h3, h4⟩ := h2
      simpa using h4
    have hmem : j ∈ as := by
      have h1 : (List.range 16)[j]? = as[j]? := by
        rw [happ, List.getElem?_append_left (by omega)]
      have h16 : k < 16 := by
        have : k ∈ List.range 16 := by rw [happ]; simp
        simpa using this
      rw [List.getElem?_range (by omega)] at h1
      exact List.mem_of_getElem? h1.symm
    simpa using hbefore j hmem

theorem lowestKey_lt (keys : Word) : lowestKey keys < 16 := by
  unfold lowestKey
  cases hf : (List.range 16).find? (fun k => keys.getLsbD k) with
  | none => simp
  | some k => simpa using List.mem_range.1 (List.mem_of_find?_eq_some hf)

end Sys2Proof.Machine
end

