-- ==== Sys2Proof/Laws/PerInstr.lean ====
section
/-! SUPPORT. One law of every instruction as syntax: its word matches its row of the opcode table
(30_encoding.md R75). -/

namespace Sys2Proof.Laws.EncodesToItsRow

open Sys2Proof

/-- The word of the instruction has the fixed bits of its row. -/
def Statement (i : Instr) : Prop := (rowOf i).matchesWord (encode i) = true

/-- Two words are equal when their bits are. -/
theorem word_ext {v w : Word} (h : ∀ k : Fin 16, v.getLsbD k = w.getLsbD k) : v = w :=
  BitVec.eq_of_getLsbD_eq fun k hk => h ⟨k, hk⟩

/-- Format aNNN keeps its primary nibble under the mask of that nibble. -/
theorem formNNN_and (a : Nibble) (nnn : Addr12) :
    formNNN a nnn &&& 0xF000#16 = formNNN a 0x000#12 := by
  apply word_ext
  simp only [formNNN, BitVec.getLsbD_and, BitVec.getLsbD_append]
  intro k
  fin_cases k <;> simp

/-- Format aXNN keeps its primary nibble under the mask of that nibble. -/
theorem formXNN_and (a : Nibble) (x : RegIdx) (nn : Byte) :
    formXNN a x nn &&& 0xF000#16 = formXNN a 0x0#4 0x00#8 := by
  apply word_ext
  simp only [formXNN, BitVec.getLsbD_and, BitVec.getLsbD_append]
  intro k
  fin_cases k <;> simp

/-- Format aXss keeps its primary nibble and its sub-opcode byte under their mask. -/
theorem formXNN_and_byte (a : Nibble) (x : RegIdx) (nn : Byte) :
    formXNN a x nn &&& 0xF0FF#16 = formXNN a 0x0#4 nn := by
  apply word_ext
  simp only [formXNN, BitVec.getLsbD_and, BitVec.getLsbD_append]
  intro k
  fin_cases k <;> simp

/-- Format aXYN keeps its primary nibble under the mask of that nibble. -/
theorem formXYN_and (a : Nibble) (x y : RegIdx) (n : Nibble) :
    formXYN a x y n &&& 0xF000#16 = formXYN a 0x0#4 0x0#4 0x0#4 := by
  apply word_ext
  simp only [formXYN, BitVec.getLsbD_and, BitVec.getLsbD_append]
  intro k
  fin_cases k <;> simp

/-- Format aXYN keeps its primary nibble and its sub-opcode nibble under their mask. -/
theorem formXYN_and_nibble (a : Nibble) (x y : RegIdx) (n : Nibble) :
    formXYN a x y n &&& 0xF00F#16 = formXYN a 0x0#4 0x0#4 n := by
  apply word_ext
  simp only [formXYN, BitVec.getLsbD_and, BitVec.getLsbD_append]
  intro k
  fin_cases k <;> simp

theorem cls : Statement .cls := by unfold Statement; decide
theorem ret : Statement .ret := by unfold Statement; decide
theorem jp (nnn : Addr12) : Statement (.jp nnn) := by
  simp only [Statement, rowOf, OpcodeRow.matchesWord, encode, formNNN_and]; decide
theorem call (nnn : Addr12) : Statement (.call nnn) := by
  simp only [Statement, rowOf, OpcodeRow.matchesWord, encode, formNNN_and]; decide
theorem seVxNn (x : RegIdx) (nn : Byte) : Statement (.seVxNn x nn) := by
  simp only [Statement, rowOf, OpcodeRow.matchesWord, encode, formXNN_and]; decide
theorem sneVxNn (x : RegIdx) (nn : Byte) : Statement (.sneVxNn x nn) := by
  simp only [Statement, rowOf, OpcodeRow.matchesWord, encode, formXNN_and]; decide
theorem seVxVy (x : RegIdx) (y : RegIdx) (n : Nibble) : Statement (.seVxVy x y n) := by
  simp only [Statement, rowOf, OpcodeRow.matchesWord, encode, formXYN_and]; decide
theorem ldVxNn (x : RegIdx) (nn : Byte) : Statement (.ldVxNn x nn) := by
  simp only [Statement, rowOf, OpcodeRow.matchesWord, encode, formXNN_and]; decide
theorem addVxNn (x : RegIdx) (nn : Byte) : Statement (.addVxNn x nn) := by
  simp only [Statement, rowOf, OpcodeRow.matchesWord, encode, formXNN_and]; decide
theorem ldVxVy (x : RegIdx) (y : RegIdx) : Statement (.ldVxVy x y) := by
  simp only [Statement, rowOf, OpcodeRow.matchesWord, encode, formXYN_and_nibble]; decide
theorem or (x : RegIdx) (y : RegIdx) : Statement (.or x y) := by
  simp only [Statement, rowOf, OpcodeRow.matchesWord, encode, formXYN_and_nibble]; decide
theorem and (x : RegIdx) (y : RegIdx) : Statement (.and x y) := by
  simp only [Statement, rowOf, OpcodeRow.matchesWord, encode, formXYN_and_nibble]; decide
theorem xor (x : RegIdx) (y : RegIdx) : Statement (.xor x y) := by
  simp only [Statement, rowOf, OpcodeRow.matchesWord, encode, formXYN_and_nibble]; decide
theorem addVxVy (x : RegIdx) (y : RegIdx) : Statement (.addVxVy x y) := by
  simp only [Statement, rowOf, OpcodeRow.matchesWord, encode, formXYN_and_nibble]; decide
theorem sub (x : RegIdx) (y : RegIdx) : Statement (.sub x y) := by
  simp only [Statement, rowOf, OpcodeRow.matchesWord, encode, formXYN_and_nibble]; decide
theorem shr (x : RegIdx) (y : RegIdx) : Statement (.shr x y) := by
  simp only [Statement, rowOf, OpcodeRow.matchesWord, encode, formXYN_and_nibble]; decide
theorem subn (x : RegIdx) (y : RegIdx) : Statement (.subn x y) := by
  simp only [Statement, rowOf, OpcodeRow.matchesWord, encode, formXYN_and_nibble]; decide
theorem shl (x : RegIdx) (y : RegIdx) : Statement (.shl x y) := by
  simp only [Statement, rowOf, OpcodeRow.matchesWord, encode, formXYN_and_nibble]; decide
theorem sneVxVy (x : RegIdx) (y : RegIdx) (n : Nibble) : Statement (.sneVxVy x y n) := by
  simp only [Statement, rowOf, OpcodeRow.matchesWord, encode, formXYN_and]; decide
theorem ldINnn (nnn : Addr12) : Statement (.ldINnn nnn) := by
  simp only [Statement, rowOf, OpcodeRow.matchesWord, encode, formNNN_and]; decide
theorem jpV0 (nnn : Addr12) : Statement (.jpV0 nnn) := by
  simp only [Statement, rowOf, OpcodeRow.matchesWord, encode, formNNN_and]; decide
theorem rnd (x : RegIdx) (nn : Byte) : Statement (.rnd x nn) := by
  simp only [Statement, rowOf, OpcodeRow.matchesWord, encode, formXNN_and]; decide
theorem drw (x : RegIdx) (y : RegIdx) (n : Nibble) : Statement (.drw x y n) := by
  simp only [Statement, rowOf, OpcodeRow.matchesWord, encode, formXYN_and]; decide
theorem skp (x : RegIdx) : Statement (.skp x) := by
  simp only [Statement, rowOf, OpcodeRow.matchesWord, encode, formXNN_and_byte]; decide
theorem sknp (x : RegIdx) : Statement (.sknp x) := by
  simp only [Statement, rowOf, OpcodeRow.matchesWord, encode, formXNN_and_byte]; decide
theorem ldVxDt (x : RegIdx) : Statement (.ldVxDt x) := by
  simp only [Statement, rowOf, OpcodeRow.matchesWord, encode, formXNN_and_byte]; decide
theorem ldVxK (x : RegIdx) : Statement (.ldVxK x) := by
  simp only [Statement, rowOf, OpcodeRow.matchesWord, encode, formXNN_and_byte]; decide
theorem ldDtVx (x : RegIdx) : Statement (.ldDtVx x) := by
  simp only [Statement, rowOf, OpcodeRow.matchesWord, encode, formXNN_and_byte]; decide
theorem ldStVx (x : RegIdx) : Statement (.ldStVx x) := by
  simp only [Statement, rowOf, OpcodeRow.matchesWord, encode, formXNN_and_byte]; decide
theorem addIVx (x : RegIdx) : Statement (.addIVx x) := by
  simp only [Statement, rowOf, OpcodeRow.matchesWord, encode, formXNN_and_byte]; decide
theorem ldFVx (x : RegIdx) : Statement (.ldFVx x) := by
  simp only [Statement, rowOf, OpcodeRow.matchesWord, encode, formXNN_and_byte]; decide
theorem ldBVx (x : RegIdx) : Statement (.ldBVx x) := by
  simp only [Statement, rowOf, OpcodeRow.matchesWord, encode, formXNN_and_byte]; decide
theorem ldMemVx (x : RegIdx) : Statement (.ldMemVx x) := by
  simp only [Statement, rowOf, OpcodeRow.matchesWord, encode, formXNN_and_byte]; decide
theorem ldVxMem (x : RegIdx) : Statement (.ldVxMem x) := by
  simp only [Statement, rowOf, OpcodeRow.matchesWord, encode, formXNN_and_byte]; decide
theorem sys (nnn : Addr12) : Statement (.sys nnn) := by
  simp only [Statement, rowOf, OpcodeRow.matchesWord, encode, formNNN_and]; decide

end Sys2Proof.Laws.EncodesToItsRow
end

