-- ==== Sys2Proof/Laws/Step.lean ====
section
/-! SUPPORT. What the frame driver does, once for each of its parts, and that every instruction answers a
next state. -/

namespace Sys2Proof.Machine

/-- In the middle of a frame nothing happens before the fetch. -/
theorem State.enterFrame_notDue {s : State} (h : 0 < s.budget) : s.enterFrame = s := by
  have hd : s.frameDue = false := by simp [State.frameDue, h]
  simp [State.enterFrame, hd]

/-- The start of a frame, as one update. -/
theorem State.enterFrame_due {s : State} (h : s.budget ≤ 0) :
    s.enterFrame =
      { s with
        dt := tick s.dt, st := tick s.st, keys := Config.hostKeys s.frames, budget := frameBudget,
        frames := s.frames + 1 } := by
  have hd : s.frameDue = true := by simp [State.frameDue, h]
  simp [State.enterFrame, hd]

/-- After the start of a frame there is budget. -/
theorem State.enterFrame_budget_pos (s : State) : 0 < s.enterFrame.budget := by
  by_cases h : s.budget ≤ 0
  · rw [State.enterFrame_due h]
    exact Int.natCast_pos.2 (by decide)
  · rw [State.enterFrame_notDue (by omega)]; omega

/-- A tick is subtraction with floor 0. -/
theorem toNat_tick (t : Byte) : (tick t).toNat = t.toNat - 1 := by
  unfold tick
  split
  · next h => simp [h]
  · next h =>
    have h0 : t.toNat ≠ 0 := fun e => h (BitVec.eq_of_toNat_eq (by simpa using e))
    have := t.isLt
    simp only [BitVec.toNat_sub, BitVec.toNat_ofNat]
    omega

/-- Everything the fetch and the decode answer. -/
theorem fetchDecode_eq (s : State) :
    fetchDecode s =
      if 4095 ≤ s.pc.toNat then .error (.outOfBounds s.pc, s)
      else match decode (s.wordAt s.pc.toNat) with
        | none => .error (.invalidOpcode (s.wordAt s.pc.toNat), s.setPc (s.pc + 2#16))
        | some i => .ok (i, s.setPc (s.pc + 2#16)) := by
  unfold fetchDecode fetch
  by_cases h : 4095 ≤ s.pc.toNat
  · simp [h]
  · cases hd : decode (s.wordAt s.pc.toNat) <;> simp [h, hd]

/-- A running machine runs one instruction step after the start of a frame. -/
theorem step_running {s : State} (h : s.fault = none) : step s = instructionStep s.enterFrame := by
  simp [step, h, runningStep]

/-- Every instruction answers a next state: a fault is taken, not answered. -/
theorem exec_next (i : Instr) (s : State) : ∃ t, exec i s = .next t := by
  cases i
  case call nnn => simp only [exec, execCall]; split <;> exact ⟨_, rfl⟩
  case ret => simp only [exec, execRet]; split <;> exact ⟨_, rfl⟩
  case skp x => simp only [exec, execSkp, keySkip]; split <;> exact ⟨_, rfl⟩
  case sknp x => simp only [exec, execSknp, keySkip]; split <;> exact ⟨_, rfl⟩
  case drw x y n => simp only [exec, execDrw]; split <;> exact ⟨_, rfl⟩
  case ldBVx x => simp only [exec, execLdBVx, storeAtIndex]; split <;> exact ⟨_, rfl⟩
  case ldMemVx x => simp only [exec, execLdMemVx, storeAtIndex]; split <;> exact ⟨_, rfl⟩
  case ldVxMem x => simp only [exec, execLdVxMem]; split <;> exact ⟨_, rfl⟩
  all_goals exact ⟨_, rfl⟩

/-- A running machine answers a next state: a fault of the fetch or the decode is taken too. -/
theorem step_next {s : State} (h : s.fault = none) : ∃ t, step s = .next t := by
  rw [step_running h, instructionStep]
  split
  · exact ⟨_, rfl⟩
  · exact exec_next _ _

end Sys2Proof.Machine
end

