-- ==== Sys2Proof/Tests/Slice0.lean ====
section
/-! SUPPORT. Tests. Every expected value is taken from spec/95_test_vectors.md; `V<n>` in a name or a
comment is the vector, `S<n>` the source's example. The witnesses at the end show, for each statement
with hypotheses, a state and operands that meet them. -/

namespace Sys2Proof.Tests

open Sys2Proof Sys2Proof.Machine

/-! ## Helpers -/

/-- The reset state in the middle of a frame with 1000 units left. -/
def base : State := { State.reset with budget := 1000 }

/-- A state with these registers set. -/
def State.withRegs (s : State) : List (RegIdx × Byte) → State
  | [] => s
  | (k, v) :: l => State.withRegs (s.setReg k v) l

/-- The middle of a frame, with these registers set. -/
def regs (l : List (RegIdx × Byte)) : State := State.withRegs base l

/-- The machine whose `SHIFT_SOURCE` is `Y`. -/
def shiftingY (s : State) : State := { s with params := { s.params with shiftSource := .y } }

/-- The answer is a next state of which `p` holds. -/
def nextIs (r : Result) (p : State → Bool) : Bool :=
  match r with
  | .next t => p t
  | .fault _ => false
  | .refused _ => false

/-- One step on this word at `pc` gives a next state of which `p` holds. -/
def runs (w : Nat) (s : State) (p : State → Bool) : Bool := nextIs (step (s.withFetchWord 16 w)) p

/-- The pixels and bytes of an otherwise empty framebuffer. -/
def fbWith (l : List (Nat × Byte)) : Framebuffer :=
  l.foldl (fun fb e => fb.setIfInBounds e.1 e.2) State.reset.fb

/-! ## Well-formedness: an ill-formed term for each check, which the check refuses -/

theorem test_wf_sys_refuses_cls_word : Instr.wf (.sys 0x0E0#12) = false := by decide
theorem test_wf_sys_refuses_ret_word : Instr.wf (.sys 0x0EE#12) = false := by decide
theorem test_wf_sys_accepts : Instr.wf (.sys 0x234#12) = true := by decide

/-! ## Decoding: the words of section 3, one for each constructor -/

theorem test_decode_control_flow :
    decode 0x1ABC#16 = some (.jp 0xABC#12) ∧ decode 0x2ABC#16 = some (.call 0xABC#12) ∧
    decode 0x00EE#16 = some .ret ∧ decode 0xBABC#16 = some (.jpV0 0xABC#12) := by decide
theorem test_decode_skips :
    decode 0x3ABC#16 = some (.seVxNn 10#4 0xBC#8) ∧ decode 0x4ABC#16 = some (.sneVxNn 10#4 0xBC#8) ∧
    decode 0x5AB0#16 = some (.seVxVy 10#4 11#4 0#4) ∧ decode 0x5ABC#16 = some (.seVxVy 10#4 11#4 12#4) ∧
    decode 0x9AB0#16 = some (.sneVxVy 10#4 11#4 0#4) ∧ decode 0xEA9E#16 = some (.skp 10#4) ∧
    decode 0xEAA1#16 = some (.sknp 10#4) := by decide
theorem test_decode_immediate :
    decode 0x6ABC#16 = some (.ldVxNn 10#4 0xBC#8) ∧
    decode 0x7ABC#16 = some (.addVxNn 10#4 0xBC#8) := by decide
theorem test_decode_alu :
    decode 0x8AB0#16 = some (.ldVxVy 10#4 11#4) ∧ decode 0x8AB1#16 = some (.or 10#4 11#4) ∧
    decode 0x8AB2#16 = some (.and 10#4 11#4) ∧ decode 0x8AB3#16 = some (.xor 10#4 11#4) ∧
    decode 0x8AB4#16 = some (.addVxVy 10#4 11#4) ∧ decode 0x8AB5#16 = some (.sub 10#4 11#4) ∧
    decode 0x8AB6#16 = some (.shr 10#4 11#4) ∧ decode 0x8AB7#16 = some (.subn 10#4 11#4) ∧
    decode 0x8ABE#16 = some (.shl 10#4 11#4) := by decide
theorem test_decode_index_memory :
    decode 0xAABC#16 = some (.ldINnn 0xABC#12) ∧ decode 0xFA1E#16 = some (.addIVx 10#4) ∧
    decode 0xFA29#16 = some (.ldFVx 10#4) ∧ decode 0xFA33#16 = some (.ldBVx 10#4) ∧
    decode 0xFA55#16 = some (.ldMemVx 10#4) ∧ decode 0xFA65#16 = some (.ldVxMem 10#4) := by decide
theorem test_decode_random_display :
    decode 0xCABC#16 = some (.rnd 10#4 0xBC#8) ∧ decode 0x00E0#16 = some .cls ∧
    decode 0xDABC#16 = some (.drw 10#4 11#4 12#4) := by decide
theorem test_decode_timers_keys :
    decode 0xFA07#16 = some (.ldVxDt 10#4) ∧ decode 0xFA0A#16 = some (.ldVxK 10#4) ∧
    decode 0xFA15#16 = some (.ldDtVx 10#4) ∧ decode 0xFA18#16 = some (.ldStVx 10#4) := by decide
/-- V48-1 to V48-5. -/
theorem test_decode_system :
    decode 0x0000#16 = some (.sys 0x000#12) ∧ decode 0x0234#16 = some (.sys 0x234#12) ∧
    decode 0x01E0#16 = some (.sys 0x1E0#12) ∧ decode 0x0FEE#16 = some (.sys 0xFEE#12) ∧
    decode 0x00E1#16 = some (.sys 0x0E1#12) := by decide
theorem test_decode_refuses :
    decode 0x8AB8#16 = none ∧ decode 0x8ABD#16 = none ∧ decode 0x8ABF#16 = none ∧
    decode 0xEA9F#16 = none ∧ decode 0xEA00#16 = none ∧ decode 0xEABC#16 = none ∧
    decode 0xFA00#16 = none ∧ decode 0xFA1F#16 = none ∧ decode 0xFA56#16 = none ∧
    decode 0xFAFF#16 = none ∧ decode 0xFABC#16 = none := by decide
/-- S2, as bytes in memory order. -/
theorem test_decode_bytes :
    decodeBytes [0x60#8, 0x05#8, 0x70#8, 0xFF#8] = .instr (.ldVxNn 0#4 5#8) [0x70#8, 0xFF#8] ∧
    decodeBytes [0x60#8] = .truncated := by decide
/-- S11. -/
theorem test_fields :
    fieldA 0xD125#16 = 0xD#4 ∧ fieldX 0xD125#16 = 1#4 ∧ fieldY 0xD125#16 = 2#4 ∧ fieldN 0xD125#16 = 5#4 ∧
    fieldNN 0xD125#16 = 0x25#8 ∧ fieldNNN 0xD125#16 = 0x125#12 := by decide
/-- No word matches two of the rows of R75: two rows differ in a bit that both fix. -/
theorem test_rows_disjoint :
    disjointRows.Pairwise fun r q => (r.pattern ^^^ q.pattern) &&& r.mask &&& q.mask ≠ 0#16 := by decide

/-! ## Control flow -/

theorem test_jp_V40_1 : runs 0x1234 base (fun t => t.pc == 0x234#16 && t.stack == []) = true := by decide
theorem test_jp_odd_V40_3 : runs 0x1051 base (fun t => t.pc == 0x051#16) = true := by decide
theorem test_call_V40_4 :
    runs 0x2210 base (fun t => t.stack == [0x0202#16] && t.pc == 0x210#16) = true := by decide
theorem test_call_full_V40_7 :
    runs 0x2210 { base with stack := List.replicate 16 0x300#16 }
      (fun t => t.fault == some .stackOverflow && t.stack.length == 16) = true := by decide
theorem test_ret_V40_5 :
    runs 0x00EE { base with stack := [0x0206#16], pc := 0x212#16 }
      (fun t => t.pc == 0x0206#16 && t.stack == []) = true := by decide
theorem test_ret_empty_V40_6 :
    runs 0x00EE base (fun t => t.fault == some .stackUnderflow) = true := by decide
theorem test_jpV0_V40_8 : runs 0xB300 (regs [(0, 0x10)]) (fun t => t.pc == 0x310#16) = true := by decide
theorem test_jpV0_unmasked_V40_9 :
    runs 0xBFFF (regs [(0, 0xFF)]) (fun t => t.pc == 0x10FE#16) = true := by decide

/-! ## Skips -/

theorem test_seVxNn_V41_1 :
    runs 0x3342 (regs [(3, 0x42)]) (fun t => t.pc == 0x204#16 && t.budget == 936) = true := by decide
theorem test_seVxNn_V41_2 :
    runs 0x3342 (regs [(3, 0x41)]) (fun t => t.pc == 0x202#16 && t.budget == 954) = true := by decide
theorem test_sneVxNn_V41_3 :
    runs 0x4342 (regs [(3, 0x41)]) (fun t => t.pc == 0x204#16 && t.budget == 936) = true := by decide
theorem test_sneVxNn_V41_4 :
    runs 0x4342 (regs [(3, 0x42)]) (fun t => t.pc == 0x202#16 && t.budget == 954) = true := by decide
theorem test_seVxVy_V41_6 :
    runs 0x5120 (regs [(1, 7), (2, 8)]) (fun t => t.pc == 0x202#16 && t.budget == 936) = true := by decide
theorem test_seVxVy_nibble_V41_14 :
    runs 0x512F (regs [(1, 7), (2, 7)]) (fun t => t.pc == 0x204#16 && t.budget == 918) = true := by decide
theorem test_sneVxVy_V41_7 :
    runs 0x9120 (regs [(1, 7), (2, 8)]) (fun t => t.pc == 0x204#16 && t.budget == 918) = true := by decide
theorem test_sneVxVy_V41_8 :
    runs 0x9120 (regs [(1, 7), (2, 7)]) (fun t => t.pc == 0x202#16 && t.budget == 936) = true := by decide
theorem test_skp_V41_9 :
    runs 0xE49E { regs [(4, 5)] with keys := 0x0020#16 }
      (fun t => t.pc == 0x204#16 && t.budget == 936) = true := by decide
theorem test_skp_noKey_V41_15 :
    runs 0xE49E (regs [(4, 0x10)]) (fun t => t.fault == some (.keyIndexOutOfRange 0x10#8)) = true := by
  decide
theorem test_sknp_V41_11 :
    runs 0xE4A1 { regs [(4, 5)] with keys := 0xFFDF#16 }
      (fun t => t.pc == 0x204#16 && t.budget == 936) = true := by decide
theorem test_sknp_V41_12 :
    runs 0xE4A1 { regs [(4, 5)] with keys := 0x0020#16 }
      (fun t => t.pc == 0x202#16 && t.budget == 918) = true := by decide

/-! ## Immediate -/

theorem test_ldVxNn_V42_1 : runs 0x6AC3 base (fun t => t.reg 10 == 0xC3#8) = true := by decide
theorem test_ldVxNn_flagRegister_V42_2 :
    runs 0x6F00 (regs [(15, 1)]) (fun t => t.reg 15 == 0#8) = true := by decide
theorem test_addVxNn_V42_3 :
    runs 0x70FF (regs [(0, 5)]) (fun t => t.reg 0 == 4#8 && t.reg 15 == 0#8) = true := by decide
theorem test_addVxNn_V42_5 : runs 0x7201 (regs [(2, 0x7F)]) (fun t => t.reg 2 == 0x80#8) = true := by
  decide

/-! ## Register to register -/

theorem test_ldVxVy_V43_1 : runs 0x8120 (regs [(2, 0xAB)]) (fun t => t.reg 1 == 0xAB#8) = true := by decide
theorem test_or_V43_2 :
    runs 0x8121 (regs [(1, 0xF0), (2, 0x0F)]) (fun t => t.reg 1 == 0xFF#8) = true := by decide
theorem test_or_flagRegister_V43_33 :
    runs 0x8F21 (regs [(15, 0x77), (2, 0x0F)]) (fun t => t.reg 15 == 0x7F#8) = true := by decide
theorem test_and_V43_3 :
    runs 0x8122 (regs [(1, 0xF0), (2, 0x3C)]) (fun t => t.reg 1 == 0x30#8) = true := by decide
theorem test_xor_V43_4 :
    runs 0x8123 (regs [(1, 0xF0), (2, 0x3C)]) (fun t => t.reg 1 == 0xCC#8) = true := by decide
theorem test_addVxVy_V43_9 :
    runs 0x8124 (regs [(1, 0x80), (2, 0x7F), (15, 5)])
      (fun t => t.reg 1 == 0xFF#8 && t.reg 15 == 0#8) = true := by decide
theorem test_addVxVy_flagOperand_V43_30 :
    runs 0x81F4 (regs [(1, 9), (15, 1)]) (fun t => t.reg 1 == 0x0A#8 && t.reg 15 == 0#8) = true := by
  decide
theorem test_sub_equal_V43_13 :
    runs 0x8125 (regs [(1, 0x55), (2, 0x55)]) (fun t => t.reg 1 == 0#8 && t.reg 15 == 1#8) = true := by
  decide
theorem test_sub_flagRegister_V43_29 :
    runs 0x8F25 (regs [(15, 3), (2, 0x0A)]) (fun t => t.reg 15 == 0#8) = true := by decide
theorem test_subn_V43_15 :
    runs 0x8127 (regs [(1, 3), (2, 0x0A)]) (fun t => t.reg 1 == 7#8 && t.reg 15 == 1#8) = true := by decide
theorem test_subn_V43_16 :
    runs 0x8127 (regs [(1, 0x0A), (2, 3)]) (fun t => t.reg 1 == 0xF9#8 && t.reg 15 == 0#8) = true := by
  decide
theorem test_shr_V43_21 :
    runs 0x8116 (regs [(1, 0xFF)]) (fun t => t.reg 1 == 0x7F#8 && t.reg 15 == 1#8) = true := by decide
/-- Both readings of `SHIFT_SOURCE`, the default first. -/
theorem test_shr_source_V43_26 :
    runs 0x8126 (regs [(1, 5), (2, 0x80)]) (fun t => t.reg 1 == 2#8 && t.reg 15 == 1#8) = true ∧
    runs 0x8126 (shiftingY (regs [(1, 5), (2, 0x80)])) (fun t => t.reg 1 == 0x40#8 && t.reg 15 == 0#8) = true := by
  decide
theorem test_shl_V43_22 :
    runs 0x811E (regs [(1, 0x81)]) (fun t => t.reg 1 == 2#8 && t.reg 15 == 1#8) = true := by decide
/-- Both readings of `SHIFT_SOURCE`, the default first. -/
theorem test_shl_source_V43_27 :
    runs 0x812E (regs [(1, 5), (2, 0x80)]) (fun t => t.reg 1 == 0x0A#8 && t.reg 15 == 0#8) = true ∧
    runs 0x812E (shiftingY (regs [(1, 5), (2, 0x80)])) (fun t => t.reg 1 == 0#8 && t.reg 15 == 1#8) = true := by
  decide
theorem test_invalid_V43_32 :
    runs 0x8128 base (fun t => t.fault == some (.invalidOpcode 0x8128#16) && t.pc == 0x202#16) = true := by
  decide

/-! ## Index register and memory -/

theorem test_ldINnn_V44_2 : runs 0xAFFF base (fun t => t.i == 0x0FFF#16) = true := by decide
theorem test_addIVx_V44_4 :
    runs 0xF21E { regs [(2, 1)] with i := 0x0FFF#16 }
      (fun t => t.i == 0x1000#16 && t.reg 15 == 0#8) = true := by decide
theorem test_addIVx_wraps_V44_5 :
    runs 0xF21E { regs [(2, 1)] with i := 0xFFFF#16 } (fun t => t.i == 0#16) = true := by decide
theorem test_ldFVx_V44_8 : runs 0xF329 (regs [(3, 0x0F)]) (fun t => t.i == 0x004B#16) = true := by decide
theorem test_ldFVx_unmasked_V44_9 :
    runs 0xF329 (regs [(3, 0xFF)]) (fun t => t.i == 0x04FB#16) = true := by decide
theorem test_ldBVx_V44_10 :
    runs 0xF433 { regs [(4, 254)] with i := 0x0300#16 }
      (fun t => t.mem.read 0x300 == 2#8 && t.mem.read 0x301 == 5#8 && t.mem.read 0x302 == 4#8 &&
        t.i == 0x300#16) = true := by decide
theorem test_ldBVx_past_V44_16 :
    runs 0xF433 { base with i := 0x0FFE#16 } (fun t => t.fault == some (.memoryOutOfRange 0x1000)) = true := by
  decide
theorem test_ldMemVx_V44_17 :
    runs 0xF355 { regs [(0, 0x11), (1, 0x22), (2, 0x33), (3, 0x44), (4, 0x55)] with i := 0x0400#16 }
      (fun t => t.mem.read 0x400 == 0x11#8 && t.mem.read 0x403 == 0x44#8 && t.mem.read 0x404 == 0#8 &&
        t.i == 0x400#16) = true := by decide
theorem test_ldMemVx_past_V44_20 :
    runs 0xFF55 { base with i := 0x0FF1#16 } (fun t => t.fault == some (.memoryOutOfRange 0x1000)) = true := by
  decide
/-- The values are the default of `FONT`. -/
theorem test_ldVxMem_V44_22 :
    runs 0xF465 (regs [(5, 0x66)])
      (fun t => t.reg 0 == 0xF0#8 && t.reg 1 == 0x90#8 && t.reg 4 == 0xF0#8 && t.reg 5 == 0x66#8 &&
        t.i == 0#16) = true := by decide
theorem test_ldVxMem_ownCode_V44_23 :
    runs 0xF165 { base with i := 0x0200#16 } (fun t => t.reg 0 == 0xF1#8 && t.reg 1 == 0x65#8) = true := by
  decide

/-! ## Random -/

/-- V45-3: under the mask 0 the result is 0 for every byte drawn, and one byte is drawn. -/
theorem test_rnd_V45_3 :
    ∃ t, exec (.rnd 3#4 0#8) base = .next t ∧ t.reg 3#4 = 0#8 ∧ t.draws = 1 :=
  ⟨_, rfl, BitVec.and_zero, rfl⟩
/-- V45-2: under the mask 0xFF the result is the byte drawn. -/
theorem test_rnd_V45_2 :
    ∃ t, exec (.rnd 3#4 0xFF#8) base = .next t ∧ t.reg 3#4 = Config.rand8 0 :=
  ⟨_, rfl, BitVec.and_allOnes⟩

/-! ## Display -/

theorem test_cls_V46_1 :
    runs 0x00E0 { regs [(15, 1)] with fb := Vector.replicate 256 0xFF#8 }
      (fun t => decide (t.fb = Vector.replicate 256 0#8) && t.reg 15 == 1#8) = true := by decide +kernel
theorem test_drw_wraps_V46_3 :
    runs 0xD122 { regs [(1, 60), (2, 31)] with i := 0x300#16, mem := [(0x300, 0xFF#8), (0x301, 0x81#8)] }
      (fun t => decide (t.fb = fbWith [(255, 0x0F#8), (248, 0xF0#8), (7, 0x08#8), (0, 0x10#8)]) &&
        t.reg 15 == 0#8) = true := by decide +kernel
theorem test_drw_collision_V46_5 :
    runs 0xD121 { base with i := 0x300#16, mem := [(0x300, 0x80#8)], fb := fbWith [(0, 0x80#8)] }
      (fun t => decide (t.fb = fbWith []) && t.reg 15 == 1#8) = true := by decide +kernel

/-! ## Timers and keys -/

theorem test_ldVxDt_V47_1 :
    runs 0xF507 { base with dt := 0x2A#8 } (fun t => t.reg 5 == 0x2A#8 && t.dt == 0x2A#8) = true := by decide
theorem test_ldDtVx_V47_2 : runs 0xF515 (regs [(5, 0x3C)]) (fun t => t.dt == 0x3C#8) = true := by decide
theorem test_ldStVx_V47_3 :
    runs 0xF518 (regs [(5, 0x3C)]) (fun t => t.st == 0x3C#8 && t.dt == 0#8) = true := by decide
theorem test_ldVxK_waits_V47_5 :
    runs 0xF60A (regs [(6, 0x77)])
      (fun t => t.reg 6 == 0x77#8 && t.pc == 0x200#16 && t.budget == 1000 - 16666) = true := by decide
theorem test_ldVxK_V47_6 :
    runs 0xF60A { base with keys := 0x0028#16 } (fun t => t.reg 6 == 3#8 && t.pc == 0x202#16) = true := by
  decide

/-! ## System, fetch, frame, load -/

theorem test_sys_V48_2 :
    runs 0x0234 base (fun t => t.fault == some (.invalidOpcode 0x0234#16) && t.pc == 0x202#16) = true := by
  decide
theorem test_fetch_V60_3 :
    nextIs (step { base with pc := 4095#16 }) (fun t => t.fault == some (.outOfBounds 4095#16)) = true := by
  decide
/-- V40-11. -/
theorem test_fetch_V60_4 :
    nextIs (step { base with pc := 4094#16 })
      (fun t => t.fault == some (.invalidOpcode 0#16) && t.pc == 0x1000#16) = true := by decide
/-- V49-1, V49-2. -/
theorem test_tick_V49_2 : tick 1#8 = 0#8 ∧ tick 5#8 = 4#8 ∧ tick 0#8 = 0#8 := by decide
/-- V49-5: the tick is not undone by the fault. -/
theorem test_frame_fault_V49_5 :
    nextIs (step { State.reset with dt := 7#8 })
      (fun t => t.fault == some (.invalidOpcode 0#16) && t.dt == 6#8 && t.pc == 0x202#16) = true := by decide
/-- V60-1, S4. -/
theorem test_load_V60_1 (s : State) :
    loadProgram (List.replicate 3585 0#8) s = .error .capacityError := by
  rw [loadProgram, List.length_replicate]; exact if_neg (by decide)

/-! ## Witnesses: the hypotheses of each statement are met, each clause at a boundary of its range -/

theorem witness_DecodeOfEncodeIsIdentity :
    Instr.wf (.sys 0x000#12) = true ∧ Instr.wf (.sys 0x0EF#12) = true ∧ Instr.wf (.drw 15#4 15#4 15#4) = true := by
  decide
theorem witness_EncodeOfDecodeIsIdentity :
    decode 0x00E1#16 = some (.sys 0x0E1#12) ∧ decode 0x5ABC#16 = some (.seVxVy 10#4 11#4 12#4) := by decide
theorem witness_InvalidWordsAreExactlyThese :
    decode 0x0FFF#16 = some (.sys 0xFFF#12) ∧ decode 0x00E0#16 = some .cls ∧ decode 0x1000#16 = some (.jp 0#12) ∧
    decode 0x8008#16 = none ∧ decode 0x8FFF#16 = none ∧ decode 0xE000#16 = none ∧ decode 0xEFA2#16 = none ∧
    decode 0xF000#16 = none ∧ decode 0xFF66#16 = none ∧ decode 0x800E#16 = some (.shl 0#4 0#4) := by decide
theorem witness_StepRunsDecodedInstruction :
    let s : State := { base with pc := 4094#16, mem := [(4094, 0x12#8)] }
    s.fault = none ∧ s.pc.toNat ≤ 4094 ∧ Instr.wf (.jp 0x200#12) = true ∧
    decode (s.mem.read s.pc.toNat ++ s.mem.read (s.pc.toNat + 1)) = some (.jp 0x200#12) := by decide
theorem witness_StepOnInvalidWordRaises :
    let s : State := { base with pc := 4094#16, mem := [(4094, 0x80#8), (4095, 0x08#8)] }
    s.fault = none ∧ s.pc.toNat ≤ 4094 ∧
    decode (s.mem.read s.pc.toNat ++ s.mem.read (s.pc.toNat + 1)) = none := by decide
theorem witness_StepPastMemoryRaisesOutOfBounds :
    let s : State := { base with pc := 4095#16 }
    s.fault = none ∧ 4095 ≤ s.pc.toNat := by decide
theorem witness_HaltedMachineAnswersItsFault :
    let s : State := { base with fault := some .stackUnderflow }
    s.fault = some .stackUnderflow := rfl
/-- The least `STACK_DEPTH`, and another font than the default. -/
theorem witness_ResetMeetsMachineInvariant :
    1 ≤ (Params.mk 1 .y).stackDepth ∧ (Vector.replicate 80 0xFF#8 : Vector Byte 80) ≠ defaultFont := by decide
theorem witness_ResetLeavesSpecifiedValues :
    let s : State := newMachine ⟨1, .y⟩ (Vector.replicate 80 0xFF#8)
    s = newMachine ⟨1, .y⟩ (Vector.replicate 80 0xFF#8) ∧ s.params = ⟨1, .y⟩ := ⟨rfl, rfl⟩
theorem witness_StepKeepsParameters : ∃ t, step base = .next t := step_next rfl
theorem witness_FrameStartTicksBothTimers :
    (let s : State := { base with budget := 0, dt := 0#8, st := 255#8 }
     s.budget ≤ 0) ∧
    (let s : State := { base with budget := 1 }
     0 < s.budget) := by decide
/-- A full stack, the highest `pc` that can be fetched, an instruction there and a whole budget. -/
def fullState : State :=
  { base with stack := List.replicate 16 4096#16, pc := 4094#16, mem := [(4094, 0x12#8)], budget := 16666 }
theorem witness_StepKeepsMachineInvariant : fullState.Inv ∧ ∃ t, step fullState = .next t :=
  ⟨{ memory := by decide, hasStack := by decide, depth := by decide,
     entries := fun v hv => by rw [List.eq_of_mem_replicate hv]; decide, pcBound := by decide,
     budgetMost := by simp [fullState, frameBudget] }, step_next rfl⟩
/-- The last value at which a frame is due, and the first at which none is. -/
theorem witness_FrameAlwaysReturns :
    (let s : State := { base with budget := 0 }
     s.fault = none ∧ s.budget ≤ 0 ∧ ∃ t, step s = .next t) ∧
    (let s : State := { base with budget := 1 }
     0 < s.budget ∧ ∃ t, step s = .next t) :=
  ⟨⟨rfl, by decide, step_next rfl⟩, by decide, step_next rfl⟩
/-- The word `1200` at 0x200, the source's self-jump (S3). -/
theorem witness_SelfJumpRunsForever :
    let s : State := { base with budget := 0, mem := [(512, 0x12#8)] }
    s.fault = none ∧ s.budget ≤ 0 ∧ s.pc.toNat ≤ 4094 ∧
    s.mem.read s.pc.toNat ++ s.mem.read (s.pc.toNat + 1) = 0x1#4 ++ s.pc.extractLsb' 0 12 := by decide
theorem witness_LoadProgramCopiesOrFails :
    base.mem.wf = true ∧ (List.replicate 3584 0xAA#8).length ≤ 3584 ∧
    3584 < (List.replicate 3585 0xAA#8).length :=
  ⟨rfl, by rw [List.length_replicate], by rw [List.length_replicate]; decide⟩
/-- The last bytes of memory, fetched and stored to: a block that starts below `pc`, and the three digits. -/
theorem witness_StoreIsSeenByNextFetch :
    let s : State := { base with i := 4080#16, pc := 4094#16 }
    let u : State := { base with i := 4093#16, pc := 4094#16 }
    (s.mem.wf = true ∧ s.pc.toNat ≤ 4094 ∧ s.i.toNat + (15#4).toNat ≤ 4095) ∧
    (u.mem.wf = true ∧ u.pc.toNat ≤ 4094 ∧ u.i.toNat + 2 ≤ 4095) := by decide
theorem witness_CallPushesReturnAddress :
    let s : State := { base with stack := List.replicate 15 0x202#16 }
    s.stack.length < s.params.stackDepth := by decide
theorem witness_CallOnFullStackRaises :
    let s : State := { base with stack := List.replicate 16 0x202#16 }
    s.params.stackDepth ≤ s.stack.length := by decide
theorem witness_ReturnPopsReturnAddress :
    let s : State := { base with stack := [0x206#16, 0x20A#16] }
    s.stack = [0x206#16] ++ [0x20A#16] := rfl
theorem witness_ReturnOnEmptyStackRaises : base.stack = [] := rfl
/-- The hypothesis on the state in which RET runs is met by the state the CALL leaves. -/
theorem witness_CallThenReturnResumes :
    base.stack.length < base.params.stackDepth ∧
    ∃ t, exec (.call 0x210#12) base = .next t ∧ ∃ t' : State, t'.stack = t.stack ∧ t'.pc ≠ t.pc :=
  ⟨by decide, ⟨_, rfl, { base with stack := [0x200#16] }, rfl, by decide⟩⟩
theorem witness_ImmediateSkips :
    (regs [(3, 0x42)]).reg 3#4 = 0x42#8 ∧ (regs [(3, 0x41)]).reg 3#4 ≠ 0x42#8 := by decide
theorem witness_RegisterSkips :
    (regs [(1, 7), (2, 7)]).reg 1#4 = (regs [(1, 7), (2, 7)]).reg 2#4 ∧
    (regs [(1, 7), (2, 8)]).reg 1#4 ≠ (regs [(1, 7), (2, 8)]).reg 2#4 := by decide
theorem witness_KeySkips :
    let s : State := { regs [(4, 15)] with keys := 0x8000#16 }
    let u : State := { regs [(4, 15)] with keys := 0x7FFF#16 }
    (s.reg 4#4).toNat ≤ 15 ∧ s.keys.getLsbD (s.reg 4#4).toNat = true ∧
    (u.reg 4#4).toNat ≤ 15 ∧ u.keys.getLsbD (u.reg 4#4).toNat = false := by decide
theorem witness_KeySkipPastKeysRaises : 15 < ((regs [(4, 16)]).reg 4#4).toNat := by decide
/-- `X` is not the flag register; the clause on the flag holds for every `X`, 15 among them. -/
theorem witness_AddSetsCarry :
    (14#4 : RegIdx) ≠ 15#4 ∧
    ((regs [(1, 0x80), (2, 0x80)]).reg 1#4).toNat + ((regs [(1, 0x80), (2, 0x80)]).reg 2#4).toNat > 255 ∧
    ¬ ((regs [(1, 0x80), (2, 0x7F)]).reg 1#4).toNat + ((regs [(1, 0x80), (2, 0x7F)]).reg 2#4).toNat > 255 := by
  decide
theorem witness_SubtractSetsNoBorrow :
    (0#4 : RegIdx) ≠ 15#4 ∧
    ((regs [(1, 5), (2, 5)]).reg 1#4).toNat ≥ ((regs [(1, 5), (2, 5)]).reg 2#4).toNat ∧
    ¬ ((regs [(1, 4), (2, 5)]).reg 1#4).toNat ≥ ((regs [(1, 4), (2, 5)]).reg 2#4).toNat := by decide
/-- Under the default, and for the machine that shifts `Y`. -/
theorem witness_ShiftsByOneSetShiftedOutBit :
    let s : State := regs [(0, 0x81), (2, 0x7E)]
    let u : State := shiftingY s
    (0#4 : RegIdx) ≠ 15#4 ∧
    0x81#8 = (match s.params.shiftSource with | .x => s.reg 0#4 | .y => s.reg 2#4) ∧
    0x7E#8 = (match u.params.shiftSource with | .x => u.reg 0#4 | .y => u.reg 2#4) := by decide
theorem witness_DecimalDigitsStored :
    let s : State := { regs [(4, 123)] with i := 0x0FFD#16 }
    s.mem.wf = true ∧ s.i.toNat + 2 ≤ 4095 := by decide
theorem witness_BlockStoreCopiesRegisters :
    let s : State := { base with i := 0x0FF0#16 }
    s.mem.wf = true ∧ s.i.toNat + (15#4).toNat ≤ 4095 := by decide
/-- `X` = 0: register 0 is loaded, register 1 is not. -/
theorem witness_BlockLoadFillsRegisters :
    let s : State := { base with i := 0x0FFF#16 }
    s.i.toNat + (0#4).toNat ≤ 4095 ∧ (0#4).toNat ≤ (0#4).toNat ∧ ¬ (1#4).toNat ≤ (0#4).toNat := by decide
/-- Each of the three clauses at the first value of `I` that is too large; the draw of one row at 4096. -/
theorem witness_TransferPastMemoryRaises :
    let b : State := { base with i := 0x0FFE#16 }
    let m : State := { base with i := 0x0FF1#16 }
    let d : State := { base with i := 0x1000#16 }
    (∃ x, Instr.ldBVx 4#4 = .ldBVx x ∧ b.i.toNat + 2 > 4095) ∧
    (∃ x : RegIdx, (Instr.ldMemVx 15#4 = .ldMemVx x ∨ Instr.ldMemVx 15#4 = .ldVxMem x) ∧
      m.i.toNat + x.toNat > 4095) ∧
    (∃ x : RegIdx, (Instr.ldVxMem 15#4 = .ldMemVx x ∨ Instr.ldVxMem 15#4 = .ldVxMem x) ∧
      m.i.toNat + x.toNat > 4095) ∧
    (∃ x y, ∃ n : Nibble, Instr.drw 1#4 2#4 1#4 = .drw x y n ∧ 1 ≤ n.toNat ∧ d.i.toNat + n.toNat - 1 > 4095) :=
  ⟨⟨4#4, rfl, by decide⟩, ⟨15#4, .inl rfl, by decide⟩, ⟨15#4, .inr rfl, by decide⟩,
    ⟨1#4, 2#4, 1#4, rfl, by decide, by decide⟩⟩
/-- No row with `I` past memory; the last byte of memory as the one row. -/
theorem witness_DrawIsPixelwiseXor :
    let s : State := { base with i := 0xFFFF#16 }
    let u : State := { base with i := 0x0FFF#16 }
    ((0#4).toNat = 0 ∨ s.i.toNat + (0#4).toNat ≤ 4096) ∧ ((1#4).toNat = 0 ∨ u.i.toNat + (1#4).toNat ≤ 4096) := by
  decide
/-- The last sprite that lies in memory; the same registers again; and, when the flag register holds the column
of the first draw, another register that holds the same column for the second. -/
theorem witness_DrawTwiceRestoresFramebuffer :
    (let s : State := { base with i := 0x0FF1#16 }
     (15#4).toNat = 0 ∨ s.i.toNat + (15#4).toNat ≤ 4096) ∧
    (let s : State := regs [(14, 60), (0, 31)]
     ((0#4).toNat = 0 ∨ s.i.toNat + (0#4).toNat ≤ 4096) ∧
     ∃ t, exec (.drw 14#4 0#4 0#4) s = .next t ∧ (t.reg 14#4).toNat % 64 = (s.reg 14#4).toNat % 64 ∧
       (t.reg 0#4).toNat % 32 = (s.reg 0#4).toNat % 32) ∧
    (let s : State := regs [(15, 9), (1, 73), (2, 31)]
     ∃ t, exec (.drw 15#4 2#4 0#4) s = .next t ∧ (t.reg 1#4).toNat % 64 = (s.reg 15#4).toNat % 64 ∧
       (t.reg 2#4).toNat % 32 = (s.reg 2#4).toNat % 32) :=
  ⟨by decide, ⟨by decide, _, rfl, by decide, by decide⟩, _, rfl, by decide, by decide⟩
theorem witness_KeyWaitLoadsLeastKeyOrRepeats :
    (let s : State := { base with keys := 0x8000#16 }
     s.keys ≠ 0#16) ∧
    (let s : State := { base with budget := 16666 }
     s.keys = 0#16 ∧ s.budget ≤ 16666) := by decide
/-- A copy leaves a register that is no destination; an addition with `X` = 15 writes the flag. -/
theorem witness_RegistersHaveOnlyTheirWriters :
    (∃ t, exec (.ldVxVy 1#4 2#4) base = .next t ∧ isDestination (.ldVxVy 1#4 2#4) 15#4 = false ∧
      flagWriter (.ldVxVy 1#4 2#4) = false) ∧
    (∃ t, exec (.addVxVy 15#4 2#4) base = .next t ∧ flagWriter (.addVxVy 15#4 2#4) = true ∧
      base.fault = none ∧ t.fault = none) :=
  ⟨⟨_, rfl, rfl, rfl⟩, ⟨_, rfl, rfl, rfl, rfl⟩⟩
theorem witness_MemoryHasOnlyItsWriters :
    (∃ t, exec (.ldVxMem 15#4) base = .next t) ∧ (∀ x, Instr.ldVxMem 15#4 ≠ .ldBVx x) ∧
    (∀ x, Instr.ldVxMem 15#4 ≠ .ldMemVx x) :=
  ⟨⟨_, rfl⟩, nofun, nofun⟩
theorem witness_FramebufferHasOnlyItsWriters :
    (∃ t, exec (.ldINnn 0x300#12) base = .next t) ∧ Instr.ldINnn 0x300#12 ≠ .cls ∧
    (∀ x y n, Instr.ldINnn 0x300#12 ≠ .drw x y n) :=
  ⟨⟨_, rfl⟩, nofun, nofun⟩
theorem witness_IndexAndStackHaveOnlyTheirWriters :
    (∃ t, exec (.ldBVx 4#4) base = .next t) ∧
    ((∀ nnn, Instr.ldBVx 4#4 ≠ .ldINnn nnn) ∧ (∀ x, Instr.ldBVx 4#4 ≠ .addIVx x) ∧
      (∀ x, Instr.ldBVx 4#4 ≠ .ldFVx x)) ∧
    ((∀ nnn, Instr.ldBVx 4#4 ≠ .call nnn) ∧ Instr.ldBVx 4#4 ≠ .ret) :=
  ⟨⟨_, rfl⟩, ⟨nofun, nofun, nofun⟩, ⟨nofun, nofun⟩⟩
theorem witness_TimersAndKeysHaveOnlyTheirWriters :
    (∃ t, exec (.ldVxDt 4#4) base = .next t) ∧ (∀ x, Instr.ldVxDt 4#4 ≠ .ldDtVx x) ∧
    (∀ x, Instr.ldVxDt 4#4 ≠ .ldStVx x) ∧ (∀ x nn, Instr.ldVxDt 4#4 ≠ .rnd x nn) :=
  ⟨⟨_, rfl⟩, nofun, nofun, nofun⟩
theorem witness_PcAfterEveryInstruction :
    (∃ t, exec (.jpV0 0xFFF#12) (regs [(0, 0xFF)]) = .next t) ∧
    (let s : State := { base with stack := List.replicate 15 0x202#16 }
     s.stack.length < s.params.stackDepth ∧ ∃ t, exec (.call 0x210#12) s = .next t) ∧
    (let s : State := { base with stack := List.replicate 16 0x202#16 }
     s.params.stackDepth ≤ s.stack.length ∧ ∃ t, exec (.call 0x210#12) s = .next t) ∧
    (∃ t, exec .ret base = .next t) :=
  ⟨⟨_, rfl⟩, ⟨by decide, _, rfl⟩, ⟨by decide, _, rfl⟩, _, rfl⟩
/-- The skips taken and not taken, and the two key skips at the last key and past it. -/
theorem witness_PcAfterEveryInstruction_skips :
    let s : State := { regs [(3, 0x42), (4, 15), (5, 16)] with keys := 0x8000#16 }
    (s.reg 3#4 = 0x42#8 ∧ ∃ t, exec (.seVxNn 3#4 0x42#8) s = .next t) ∧
    (¬ s.reg 3#4 = 0x41#8 ∧ ∃ t, exec (.seVxNn 3#4 0x41#8) s = .next t) ∧
    ((s.reg 4#4).toNat ≤ 15 ∧ s.keys.getLsbD (s.reg 4#4).toNat = true ∧ ∃ t, exec (.skp 4#4) s = .next t) ∧
    (¬ ((s.reg 5#4).toNat ≤ 15 ∧ s.keys.getLsbD (s.reg 5#4).toNat = false) ∧
      ∃ t, exec (.sknp 5#4) s = .next t) :=
  ⟨⟨by decide, _, rfl⟩, ⟨by decide, _, rfl⟩, ⟨by decide, by decide, _, rfl⟩, by decide, _, rfl⟩
theorem witness_SoundTimerIsNeverRead : ∃ t, exec (.ldStVx 4#4) base = .next t := ⟨_, rfl⟩
theorem witness_ValuesDoNotDependOnBudget : ∃ t, exec (.ldVxK 4#4) base = .next t := ⟨_, rfl⟩
theorem witness_FramebufferIsReadOnlyByDraw :
    (∃ t, exec .cls base = .next t) ∧ ∀ x y n, Instr.cls ≠ .drw x y n :=
  ⟨⟨_, rfl⟩, nofun⟩
theorem witness_EveryInstructionCostsAtLeastOne :
    (∃ t, exec (.jp 0x200#12) base = .next t) ∧ ∃ t, exec .ret base = .next t := ⟨⟨_, rfl⟩, ⟨_, rfl⟩⟩

end Sys2Proof.Tests
end

/-! SUPPORT. The OPEN parameters (00_scope.md R3) along a step: no operation over the state, no
instruction and no part of the frame driver writes them. -/

namespace Sys2Proof.Machine

/-! ## The operations that can fail -/

theorem raise_params {f : Fault} {s t : State} (h : raise f s = .next t) : t.params = s.params := by
  rw [raise_eq] at h
  cases h
  rfl

theorem State.push_params {s s' : State} {v : Word} (h : s.push v = .ok s') :
    s'.params = s.params := by
  rw [State.push] at h
  split at h
  · cases h; rfl
  · cases h

theorem State.pop_params {s s' : State} {v : Word} (h : s.pop = .ok (v, s')) :
    s'.params = s.params := by
  rw [State.pop] at h
  split at h
  · cases h; rfl
  · cases h

theorem State.writeBytes_params {s s' : State} {a : Nat} {bs : List Byte}
    (h : s.writeBytes a bs = .ok s') : s'.params = s.params := by
  rw [State.writeBytes_eq] at h
  split at h
  · cases h; rfl
  · cases h

/-! ## The instructions -/

theorem storeAtIndex_params {i : Instr} {bs : List Byte} {s t : State}
    (h : storeAtIndex i bs s = .next t) : t.params = s.params := by
  rw [storeAtIndex] at h
  split at h
  · exact raise_params h
  · next s' hw => cases h; rw [State.charge_params, State.writeBytes_params hw]

theorem keySkip_params {x : RegIdx} {held : Bool} {s t : State} (h : keySkip x held s = .next t) :
    t.params = s.params := by
  rcases Nat.lt_or_ge 15 (s.reg x).toNat with hkey | hkey
  · rw [keySkip_noKey held hkey] at h
    exact raise_params h
  · rw [keySkip_key held hkey, skipIf_eq] at h
    cases h
    rfl

theorem execCall_params {nnn : Addr12} {s t : State} (h : execCall nnn s = .next t) :
    t.params = s.params := by
  rw [execCall] at h
  split at h
  · exact raise_params h
  · next s' hp => cases h; rw [State.charge_params, State.setPc_params, State.push_params hp]

theorem execRet_params {s t : State} (h : execRet s = .next t) : t.params = s.params := by
  rw [execRet] at h
  split at h
  · exact raise_params h
  · next v s' hp => cases h; rw [State.charge_params, State.setPc_params, State.pop_params hp]

theorem execDrw_params {x y : RegIdx} {n : Nibble} {s t : State} (h : execDrw x y n s = .next t) :
    t.params = s.params := by
  rw [execDrw] at h
  split at h
  · exact raise_params h
  · cases h; rfl

theorem execLdVxMem_params {x : RegIdx} {s t : State} (h : execLdVxMem x s = .next t) :
    t.params = s.params := by
  rw [execLdVxMem] at h
  split at h
  · exact raise_params h
  · cases h; rfl

theorem execLdVxK_params {x : RegIdx} {s t : State} (h : execLdVxK x s = .next t) :
    t.params = s.params := by
  rw [execLdVxK] at h
  cases h
  split <;> rfl

/-- No instruction writes the parameters. One without a branch is a single update of other fields; one that
can fault or branches has its lemma above. -/
theorem exec_params {i : Instr} {s t : State} (h : exec i s = .next t) : t.params = s.params := by
  cases i
  case call nnn => exact execCall_params h
  case ret => exact execRet_params h
  case drw x y n => exact execDrw_params h
  case skp x => exact keySkip_params h
  case sknp x => exact keySkip_params h
  case ldVxK x => exact execLdVxK_params h
  case ldBVx x => exact storeAtIndex_params h
  case ldMemVx x => exact storeAtIndex_params h
  case ldVxMem x => exact execLdVxMem_params h
  case sys nnn => exact raise_params h
  all_goals cases h; rfl

/-! ## The frame driver -/

/-- Whether the fetch and the decode give an instruction or a fault, their state has the parameters of the
state before: the fetch moves `pc` alone. -/
theorem instructionStep_params {s t : State} (h : instructionStep s = .next t) :
    t.params = s.params := by
  rw [instructionStep, fetchDecode_eq] at h
  by_cases hpc : 4095 ≤ s.pc.toNat
  · rw [if_pos hpc] at h
    exact raise_params h
  · rw [if_neg hpc] at h
    cases hd : decode (s.wordAt s.pc.toNat) with
    | none =>
      simp only [hd] at h
      rw [raise_params h, State.setPc_params]
    | some i =>
      simp only [hd] at h
      rw [exec_params h, State.setPc_params]

/-- Settles O60: a halted machine answers no next state, and a running one runs an instruction step after
the start of a frame; neither writes the parameters. -/
theorem stepKeepsParameters : Obligations.StepKeepsParameters := by
  intro s t h
  cases hf : s.fault with
  | some f => simp [step, hf] at h
  | none =>
    rw [step_running hf] at h
    rw [instructionStep_params h, State.enterFrame_params]

end Sys2Proof.Machine

/-! SUPPORT. What running an instruction can do, said once: it takes a fault, or it changes only the parts
that the table `partsWritten` names for it and then pays at least 1. -/

namespace Sys2Proof.Machine

/-! ## Leaving parts of the state alone -/

/-- Every part but these is the same in both states, and memory is the same list too: the canonical form
speaks of the list, `Part.same` only of what is read from it. -/
def KeepsBut (ps : List Part) (s t : State) : Prop :=
  SameBut ps s t ∧ (Part.mem ∉ ps → t.mem = s.mem)

theorem KeepsBut.mono {ps qs : List Part} {s t : State} (h : KeepsBut ps s t) (hsub : ps ⊆ qs) :
    KeepsBut qs s t :=
  ⟨fun p hp => h.1 p fun hps => hp (hsub hps), fun hp => h.2 fun hps => hp (hsub hps)⟩

theorem Part.same_trans {p : Part} {s t u : State} (h : p.same s t) (h' : p.same t u) :
    p.same s u := by
  cases p
  case mem | regs => exact fun a => (h' a).trans (h a)
  all_goals exact Eq.trans h' h

/-- Two updates in a row write what either writes. -/
theorem KeepsBut.trans {ps qs : List Part} {s t u : State} (h : KeepsBut ps s t)
    (h' : KeepsBut qs t u) : KeepsBut (ps ++ qs) s u := by
  constructor
  · intro p hp
    rw [List.mem_append, not_or] at hp
    exact Part.same_trans (h.1 p hp.1) (h'.1 p hp.2)
  · intro hp
    rw [List.mem_append, not_or] at hp
    exact (h'.2 hp.2).trans (h.2 hp.1)

/-! ## What each update leaves alone -/

section Updates
variable (s : State)

theorem withMem_keeps (m : Memory) : KeepsBut [.mem] s { s with mem := m } := by
  refine ⟨fun p hp => ?_, fun hp => absurd (List.mem_singleton_self _) hp⟩
  cases p <;> simp [Part.same, State.reg] at hp ⊢

theorem withRegs_keeps (r : Vector Byte 16) : KeepsBut [.regs] s { s with regs := r } := by
  refine ⟨fun p hp => ?_, fun _ => rfl⟩
  cases p <;> simp [Part.same] at hp ⊢

theorem State.setReg_keeps (k : RegIdx) (v : Byte) : KeepsBut [.regs] s (s.setReg k v) :=
  withRegs_keeps s _

theorem State.setI_keeps (v : Word) : KeepsBut [.i] s (s.setI v) := by
  refine ⟨fun p hp => ?_, fun _ => rfl⟩
  cases p <;> simp [Part.same] at hp ⊢

theorem State.setPc_keeps (v : Word) : KeepsBut [.pc] s (s.setPc v) := by
  refine ⟨fun p hp => ?_, fun _ => rfl⟩
  cases p <;> simp [Part.same] at hp ⊢

theorem withStack_keeps (vs : List Word) : KeepsBut [.stack] s { s with stack := vs } := by
  refine ⟨fun p hp => ?_, fun _ => rfl⟩
  cases p <;> simp [Part.same, State.reg] at hp ⊢

theorem withDt_keeps (v : Byte) : KeepsBut [.dt] s { s with dt := v } := by
  refine ⟨fun p hp => ?_, fun _ => rfl⟩
  cases p <;> simp [Part.same, State.reg] at hp ⊢

theorem withSt_keeps (v : Byte) : KeepsBut [.st] s { s with st := v } := by
  refine ⟨fun p hp => ?_, fun _ => rfl⟩
  cases p <;> simp [Part.same, State.reg] at hp ⊢

theorem withFb_keeps (fb : Framebuffer) : KeepsBut [.fb] s { s with fb := fb } := by
  refine ⟨fun p hp => ?_, fun _ => rfl⟩
  cases p <;> simp [Part.same, State.reg] at hp ⊢

theorem State.drawByte_keeps : KeepsBut [.draws] s s.drawByte.2 := by
  refine ⟨fun p hp => ?_, fun _ => rfl⟩
  cases p <;> simp [Part.same] at hp ⊢

end Updates

theorem State.writeBytes_keeps {s s' : State} {a : Nat} {bs : List Byte}
    (h : s.writeBytes a bs = .ok s') : KeepsBut [.mem] s s' := by
  rw [State.writeBytes_eq] at h
  split at h
  · cases h; exact withMem_keeps s _
  · cases h

/-! ## CALL and RET on a stack with and without room (40_control_flow.md R101, R102) -/

theorem execCall_room {nnn : Addr12} {s : State} (h : s.stack.length < s.params.stackDepth) :
    execCall nnn s = .next (({ s with stack := s.stack ++ [s.pc] }.setPc (addrOperand nnn)).charge
      (openCost (.call nnn) s)) := by
  rw [execCall, State.push_room _ h]

theorem execCall_full {nnn : Addr12} {s : State} (h : s.params.stackDepth ≤ s.stack.length) :
    execCall nnn s = raise .stackOverflow s := by
  rw [execCall, State.push_full _ h]

theorem execRet_append {s : State} {vs : List Word} {v : Word} (h : s.stack = vs ++ [v]) :
    execRet s = .next (({ s with stack := vs }.setPc v).charge (openCost .ret s)) := by
  rw [execRet, State.pop_append h]

theorem execRet_empty {s : State} (h : s.stack = []) : execRet s = raise .stackUnderflow s := by
  rw [execRet, State.pop_empty h]

/-! ## What an instruction can do -/

/-- The parts an instruction may write (10_state.md R12 to R22, 20_memory.md R40), the budget and the fault
status apart. -/
def partsWritten : Instr → List Part
  | .ldBVx _ | .ldMemVx _ => [.mem]
  | .ldVxNn _ _ | .addVxNn _ _ | .ldVxVy _ _ | .or _ _ | .and _ _ | .xor _ _ | .addVxVy _ _ | .sub _ _
  | .shr _ _ | .subn _ _ | .shl _ _ | .ldVxDt _ | .ldVxMem _ => [.regs]
  | .ldINnn _ | .addIVx _ | .ldFVx _ => [.i]
  | .jp _ | .jpV0 _ | .seVxNn _ _ | .sneVxNn _ _ | .seVxVy _ _ _ | .sneVxVy _ _ _ | .skp _ | .sknp _ => [.pc]
  | .call _ | .ret => [.stack, .pc]
  | .ldVxK _ => [.pc, .regs]
  | .ldDtVx _ => [.dt]
  | .ldStVx _ => [.st]
  | .cls => [.fb]
  | .drw _ _ _ => [.fb, .regs]
  | .rnd _ _ => [.draws, .regs]
  | .sys _ => []

/-- `t` comes from `s` by a fault, or by writing at most these parts and paying at least 1. -/
inductive FaultsOrPays (ps : List Part) (s t : State) : Prop where
  | faults (f : Fault) (h : raise f s = .next t)
  | pays (u : State) (c : Nat) (kept : KeepsBut ps s u) (hc : 1 ≤ c) (h : t = u.charge c)

theorem openCost_pos (i : Instr) (s : State) : 1 ≤ openCost i s := Nat.le_add_left 1 _

theorem immediateSkipCost_pos (taken : Bool) : 1 ≤ immediateSkipCost taken := by
  cases taken <;> decide

theorem registerSkipCost_pos (taken : Bool) : 1 ≤ registerSkipCost taken := by
  cases taken <;> decide

theorem keySkipCost_pos (taken : Bool) : 1 ≤ keySkipCost taken := by
  cases taken <;> decide

theorem skipIf_pays {taken : Bool} {cost : Nat} {s t : State} (h : skipIf taken cost s = .next t)
    (hc : 1 ≤ cost) : FaultsOrPays [.pc] s t := by
  cases h
  exact .pays _ _ (s.setPc_keeps _) hc rfl

theorem keySkip_faultsOrPays {x : RegIdx} {held : Bool} {s t : State}
    (h : keySkip x held s = .next t) : FaultsOrPays [.pc] s t := by
  rcases Nat.lt_or_ge 15 (s.reg x).toNat with hkey | hkey
  · rw [keySkip_noKey held hkey] at h
    exact .faults _ h
  · rw [keySkip_key held hkey] at h
    exact skipIf_pays h (keySkipCost_pos _)

theorem storeAtIndex_faultsOrPays {i : Instr} {bs : List Byte} {s t : State}
    (h : storeAtIndex i bs s = .next t) : FaultsOrPays [.mem] s t := by
  rw [storeAtIndex] at h
  split at h
  · exact .faults _ h
  · next s' hw => cases h; exact .pays _ _ (State.writeBytes_keeps hw) (openCost_pos _ _) rfl

theorem execCall_faultsOrPays {nnn : Addr12} {s t : State} (h : execCall nnn s = .next t) :
    FaultsOrPays [.stack, .pc] s t := by
  rcases Nat.lt_or_ge s.stack.length s.params.stackDepth with hroom | hfull
  · rw [execCall_room hroom] at h
    cases h
    exact .pays _ _ ((withStack_keeps s _).trans (State.setPc_keeps _ _)) (openCost_pos _ _) rfl
  · rw [execCall_full hfull] at h
    exact .faults _ h

theorem execRet_faultsOrPays {s t : State} (h : execRet s = .next t) :
    FaultsOrPays [.stack, .pc] s t := by
  rcases s.stack.eq_nil_or_concat' with hs | ⟨vs, v, hs⟩
  · rw [execRet_empty hs] at h
    exact .faults _ h
  · rw [execRet_append hs] at h
    cases h
    exact .pays _ _ ((withStack_keeps s _).trans (State.setPc_keeps _ _)) (openCost_pos _ _) rfl

theorem execDrw_faultsOrPays {x y : RegIdx} {n : Nibble} {s t : State}
    (h : execDrw x y n s = .next t) : FaultsOrPays [.fb, .regs] s t := by
  rw [execDrw] at h
  split at h
  · exact .faults _ h
  · cases h
    exact .pays _ _ ((withFb_keeps s _).trans (State.setReg_keeps _ _ _)) (openCost_pos _ _) rfl

theorem execLdVxMem_faultsOrPays {x : RegIdx} {s t : State} (h : execLdVxMem x s = .next t) :
    FaultsOrPays [.regs] s t := by
  rw [execLdVxMem] at h
  split at h
  · exact .faults _ h
  · cases h
    exact .pays _ _ (withRegs_keeps s _) (openCost_pos _ _) rfl

theorem execLdVxK_pays {x : RegIdx} {s t : State} (h : execLdVxK x s = .next t) :
    FaultsOrPays [.pc, .regs] s t := by
  rw [execLdVxK] at h
  cases h
  split
  · exact .pays _ _ ((s.setPc_keeps _).mono (by simp)) (by decide) rfl
  · exact .pays _ _ ((s.setReg_keeps _ _).mono (by simp)) (openCost_pos _ _) rfl

/-- Everything an instruction can do, as far as who writes what, the cost and the fault go. One without a
branch is a single update; one that can fault or branches has its lemma above. -/
theorem exec_faultsOrPays {i : Instr} {s t : State} (h : exec i s = .next t) :
    FaultsOrPays (partsWritten i) s t := by
  cases i
  case call nnn => exact execCall_faultsOrPays h
  case ret => exact execRet_faultsOrPays h
  case seVxNn x nn | sneVxNn x nn => exact skipIf_pays h (immediateSkipCost_pos _)
  case seVxVy x y n | sneVxVy x y n => exact skipIf_pays h (registerSkipCost_pos _)
  case skp x | sknp x => exact keySkip_faultsOrPays h
  case drw x y n => exact execDrw_faultsOrPays h
  case ldBVx x | ldMemVx x => exact storeAtIndex_faultsOrPays h
  case ldVxMem x => exact execLdVxMem_faultsOrPays h
  case ldVxK x => exact execLdVxK_pays h
  case sys nnn => exact .faults _ h
  all_goals cases h; refine .pays _ _ ?_ (openCost_pos _ _) rfl
  case jp nnn | jpV0 nnn => exact s.setPc_keeps _
  case ldINnn nnn => exact s.setI_keeps _
  case addIVx x | ldFVx x => exact s.setI_keeps _
  case ldDtVx x => exact withDt_keeps s _
  case ldStVx x => exact withSt_keeps s _
  case cls => exact withFb_keeps s _
  case rnd x nn => exact s.drawByte_keeps.trans (State.setReg_keeps _ _ _)
  all_goals exact withRegs_keeps s _

/-- A fault and a payment both stay within the two parts that the table leaves out. -/
theorem exec_keeps {i : Instr} {s t : State} (h : exec i s = .next t) :
    KeepsBut (.budget :: .fault :: partsWritten i) s t := by
  cases exec_faultsOrPays h with
  | faults f hf =>
    cases hf
    refine ⟨fun p hp => ?_, fun _ => rfl⟩
    cases p <;> simp [Part.same, State.reg] at hp ⊢
  | pays u c hu _ ht =>
    subst ht
    refine ⟨fun p hp => ?_, fun hp => hu.2 fun hm => hp (by simp [hm])⟩
    obtain ⟨hbudget, -, hwritten⟩ : p ≠ .budget ∧ p ≠ .fault ∧ p ∉ partsWritten i := by
      simpa using hp
    refine Part.same_trans (hu.1 p hwritten) ?_
    cases p <;> simp [Part.same] at hbudget ⊢

/-- Beside the budget and the fault status an instruction changes only the parts of the table. -/
theorem exec_sameBut {i : Instr} {s t : State} (h : exec i s = .next t) :
    SameBut (.budget :: .fault :: partsWritten i) s t := (exec_keeps h).1

end Sys2Proof.Machine

/-! SUPPORT. Who writes which part of the state, read off the table `partsWritten`. -/

namespace Sys2Proof.Machine

/-- Settles O52: of the parts an instruction writes, the framebuffer is one for CLS and DRW alone. -/
theorem framebufferHasOnlyItsWriters : Obligations.FramebufferHasOnlyItsWriters := by
  intro i s t h hcls hdrw
  refine exec_sameBut h .fb ?_
  cases i
  case cls => exact absurd rfl hcls
  case drw x y n => exact absurd rfl (hdrw x y n)
  all_goals simp [partsWritten]

/-- Settles O53: the index register and the call stack have their writers in the table. -/
theorem indexAndStackHaveOnlyTheirWriters : Obligations.IndexAndStackHaveOnlyTheirWriters := by
  intro i s t h
  refine ⟨fun hld hadd hldF => exec_sameBut h .i ?_,
    fun hcall hret => exec_sameBut h .stack ?_⟩
  · cases i
    case ldINnn nnn => exact absurd rfl (hld nnn)
    case addIVx x => exact absurd rfl (hadd x)
    case ldFVx x => exact absurd rfl (hldF x)
    all_goals simp [partsWritten]
  · cases i
    case call nnn => exact absurd rfl (hcall nnn)
    case ret => exact absurd rfl hret
    all_goals simp [partsWritten]

/-- Settles O54: the two timers and the count of draws have one writer each in the table, KEYS and the count
of frames none. -/
theorem timersAndKeysHaveOnlyTheirWriters : Obligations.TimersAndKeysHaveOnlyTheirWriters := by
  intro i s t h
  refine ⟨fun hdt => exec_sameBut h .dt ?_, fun hst => exec_sameBut h .st ?_,
    exec_sameBut h .keys ?_, exec_sameBut h .frames ?_,
    fun hrnd => exec_sameBut h .draws ?_⟩
  · cases i
    case ldDtVx x => exact absurd rfl (hdt x)
    all_goals simp [partsWritten]
  · cases i
    case ldStVx x => exact absurd rfl (hst x)
    all_goals simp [partsWritten]
  · cases i <;> simp [partsWritten]
  · cases i <;> simp [partsWritten]
  · cases i
    case rnd x nn => exact absurd rfl (hrnd x nn)
    all_goals simp [partsWritten]

end Sys2Proof.Machine

/-! SUPPORT. Who writes the registers (10_state.md R11, R12). -/

namespace Sys2Proof.Machine

theorem flagByte_zero_or_one (b : Bool) : flagByte b = 0#8 ∨ flagByte b = 1#8 := by
  cases b
  · exact .inl rfl
  · exact .inr rfl

/-! ## The instructions that write registers -/

theorem raise_reg {f : Fault} {s t : State} (h : raise f s = .next t) (k : RegIdx) :
    t.reg k = s.reg k := by
  cases h
  rfl

theorem writeResult_reg_ne {i : Instr} {x k : RegIdx} {v : Byte} {s t : State}
    (h : writeResult i x v s = .next t) (hk : k ≠ x) : t.reg k = s.reg k := by
  cases h
  exact s.reg_setReg_ne v hk

theorem writeResultFlag_reg_ne {i : Instr} {x k : RegIdx} {v flag : Byte} {s t : State}
    (h : writeResultFlag i x v flag s = .next t) (hk : k ≠ x) (hflag : k ≠ flagReg) :
    t.reg k = s.reg k := by
  cases h
  simp [State.reg_setResultFlag, hk, hflag]

theorem writeResultFlag_reg_flagReg {i : Instr} {x : RegIdx} {v : Byte} {b : Bool} {s t : State}
    (h : writeResultFlag i x v (flagByte b) s = .next t) :
    t.reg flagReg = 0#8 ∨ t.reg flagReg = 1#8 := by
  cases h
  simpa [State.reg_setResultFlag] using flagByte_zero_or_one b

theorem execRnd_reg_ne {x k : RegIdx} {nn : Byte} {s t : State} (h : execRnd x nn s = .next t)
    (hk : k ≠ x) : t.reg k = s.reg k := by
  cases h
  exact State.reg_setReg_ne _ _ hk

theorem execLdVxK_reg_ne {x k : RegIdx} {s t : State} (h : execLdVxK x s = .next t)
    (hk : k ≠ x) : t.reg k = s.reg k := by
  rw [execLdVxK] at h
  cases h
  split
  · rfl
  · exact s.reg_setReg_ne _ hk

theorem execDrw_reg_ne {x y k : RegIdx} {n : Nibble} {s t : State} (h : execDrw x y n s = .next t)
    (hk : k ≠ flagReg) : t.reg k = s.reg k := by
  rw [execDrw] at h
  split at h
  · exact raise_reg h k
  · cases h
    exact State.reg_setReg_ne _ _ hk

theorem execDrw_reg_flagReg {x y : RegIdx} {n : Nibble} {s t : State}
    (h : execDrw x y n s = .next t) (hf : t.fault = none) :
    t.reg flagReg = 0#8 ∨ t.reg flagReg = 1#8 := by
  rw [execDrw] at h
  split at h
  · cases h
    cases hf
  · cases h
    simpa using flagByte_zero_or_one _

theorem State.length_of_readBytes {s : State} {a n : Nat} {bs : List Byte}
    (h : s.readBytes a n = .ok bs) : bs.length = n := by
  rw [State.readBytes_eq] at h
  split at h
  · cases h; simp
  · cases h

/-- The block load stops at register `x` (44_index_memory.md R145). -/
theorem execLdVxMem_reg_above {x k : RegIdx} {s t : State} (h : execLdVxMem x s = .next t)
    (hk : x.toNat < k.toNat) : t.reg k = s.reg k := by
  rw [execLdVxMem] at h
  split at h
  · exact raise_reg h k
  · next bytes hr =>
    cases h
    have hlen := State.length_of_readBytes hr
    simp [State.reg, fillRegs_getElem, hlen, Nat.not_le.2 hk]

/-! ## All instructions -/

/-- A register that is no destination, and not the flag register of a flag writer, is unchanged. An instruction
that writes registers has its lemma above; for the others no register is among the parts written. -/
theorem exec_reg_of_not_destination {i : Instr} {s t : State} {k : RegIdx} (h : exec i s = .next t)
    (hk : isDestination i k = false) (hflag : k = 15#4 → flagWriter i = false) :
    t.reg k = s.reg k := by
  cases i
  case ldVxNn x nn | addVxNn x nn => exact writeResult_reg_ne h (ne_of_beq_false hk)
  case ldVxVy x y | or x y | and x y | xor x y => exact writeResult_reg_ne h (ne_of_beq_false hk)
  case ldVxDt x => exact writeResult_reg_ne h (ne_of_beq_false hk)
  case addVxVy x y | sub x y | shr x y | subn x y | shl x y =>
    exact writeResultFlag_reg_ne h (ne_of_beq_false hk) fun hk15 => nomatch hflag hk15
  case rnd x nn => exact execRnd_reg_ne h (ne_of_beq_false hk)
  case ldVxK x => exact execLdVxK_reg_ne h (ne_of_beq_false hk)
  case drw x y n => exact execDrw_reg_ne h fun hk15 => nomatch hflag hk15
  case ldVxMem x => exact execLdVxMem_reg_above h (by simpa [isDestination] using hk)
  all_goals exact exec_sameBut h .regs (by simp [partsWritten]) k

theorem exec_reg_flagReg {i : Instr} {s t : State} (h : exec i s = .next t)
    (hi : flagWriter i = true) (hf : t.fault = none) : t.reg flagReg = 0#8 ∨ t.reg flagReg = 1#8 := by
  cases i
  case addVxVy x y | sub x y | shr x y | subn x y | shl x y => exact writeResultFlag_reg_flagReg h
  case drw x y n => exact execDrw_reg_flagReg h hf
  all_goals cases hi

/-- Settles O50: both halves instruction by instruction. -/
theorem registersHaveOnlyTheirWriters : Obligations.RegistersHaveOnlyTheirWriters :=
  fun _ _ _ h => ⟨fun _ => exec_reg_of_not_destination h, fun hi _ => exec_reg_flagReg h hi⟩

end Sys2Proof.Machine

/-! SUPPORT. Where each instruction leaves `pc` (the table of 10_state.md R15). -/

namespace Sys2Proof.Machine

@[simp] theorem toNat_addrOperand (nnn : Addr12) : (addrOperand nnn).toNat = nnn.toNat := by
  have := nnn.isLt
  simp only [addrOperand, BitVec.toNat_setWidth]
  omega

@[simp] theorem toNat_wideByte (v : Byte) : (wideByte v).toNat = v.toNat := by
  have := v.isLt
  simp only [wideByte, BitVec.toNat_setWidth]
  omega

/-- The target of JP V0 does not wrap: it is at most 4095 + 255 (40_control_flow.md R103, D20). -/
theorem toNat_addrOperand_add_wideByte (nnn : Addr12) (v : Byte) :
    (addrOperand nnn + wideByte v).toNat = nnn.toNat + v.toNat := by
  have := nnn.isLt
  have := v.isLt
  rw [BitVec.toNat_add, toNat_addrOperand, toNat_wideByte]
  omega

theorem raise_pc {f : Fault} {s t : State} (h : raise f s = .next t) : t.pc = s.pc := by
  cases h
  rfl

theorem skipIf_pcAfterSkip {taken : Bool} {cost : Nat} {s t : State} {P : Prop}
    (h : skipIf taken cost s = .next t) (hP : taken = true ↔ P) : pcAfterSkip s.pc t.pc P := by
  cases h
  rw [pcAfterSkip, ← hP]
  cases taken <;> simp

theorem keySkip_pcAfterSkip {x : RegIdx} {held : Bool} {s t : State}
    (h : keySkip x held s = .next t) :
    pcAfterSkip s.pc t.pc ((s.reg x).toNat ≤ 15 ∧ s.keys.getLsbD (s.reg x).toNat = held) := by
  rcases Nat.lt_or_ge 15 (s.reg x).toNat with hkey | hkey
  · rw [keySkip_noKey held hkey] at h
    exact ⟨fun hle => absurd hle.1 (Nat.not_le.2 hkey), fun _ => raise_pc h⟩
  · rw [keySkip_key held hkey] at h
    exact skipIf_pcAfterSkip h (by simp [State.keyHeld, hkey])

theorem execCall_pcAfter {nnn : Addr12} {s t : State} (h : execCall nnn s = .next t) :
    pcAfter (.call nnn) s s.pc t.pc := by
  rcases Nat.lt_or_ge s.stack.length s.params.stackDepth with hroom | hfull
  · rw [execCall_room hroom] at h
    cases h
    exact ⟨fun _ => toNat_addrOperand nnn, fun hfull => absurd hroom (Nat.not_lt.2 hfull)⟩
  · rw [execCall_full hfull] at h
    exact ⟨fun hroom => absurd hroom (Nat.not_lt.2 hfull), fun _ => raise_pc h⟩

theorem execRet_pcAfter {s t : State} (h : execRet s = .next t) : pcAfter .ret s s.pc t.pc := by
  rcases s.stack.eq_nil_or_concat' with hs | ⟨vs, v, hs⟩
  · rw [execRet_empty hs] at h
    exact .inr ⟨raise_pc h, hs⟩
  · rw [execRet_append hs] at h
    cases h
    exact .inl ⟨vs, hs⟩

theorem execLdVxK_pcAfter {x : RegIdx} {s t : State} (h : execLdVxK x s = .next t) :
    pcAfter (.ldVxK x) s s.pc t.pc := by
  rw [execLdVxK] at h
  cases h
  split
  · next hk => exact .inl ⟨rfl, hk⟩
  · next hk => exact .inr ⟨rfl, hk⟩

/-- Settles O55: the instructions that write `pc` by the lemmas above; for the others `pc` is not among the
parts written. -/
theorem pcAfterEveryInstruction : Obligations.PcAfterEveryInstruction := by
  intro i s t h
  cases i
  case jp nnn => cases h; exact toNat_addrOperand nnn
  case jpV0 nnn => cases h; exact toNat_addrOperand_add_wideByte nnn _
  case call nnn => exact execCall_pcAfter h
  case ret => exact execRet_pcAfter h
  case seVxNn x nn => exact skipIf_pcAfterSkip h beq_iff_eq
  case sneVxNn x nn => exact skipIf_pcAfterSkip h bne_iff_ne
  case seVxVy x y n => exact skipIf_pcAfterSkip h beq_iff_eq
  case sneVxVy x y n => exact skipIf_pcAfterSkip h bne_iff_ne
  case skp x | sknp x => exact keySkip_pcAfterSkip h
  case ldVxK x => exact execLdVxK_pcAfter h
  all_goals exact exec_sameBut h .pc (by simp [partsWritten])

end Sys2Proof.Machine

/-! SUPPORT. The machine after reset and after `new()` (10_state.md R27, 49_frame_driver.md R197). -/

namespace Sys2Proof.Machine

/-- Beyond the font an address that nothing has written reads 0. -/
theorem unlistedByte_of_ge {a : Nat} (h : 80 ≤ a) : unlistedByte a = 0#8 :=
  List.getD_eq_default _ _ h

/-- Loading the default font over the reset memory lists nothing. -/
theorem load_defaultFont : Memory.load [] 0 defaultFont.toList = [] := by decide

theorem reset_eq_newMachine : State.reset = newMachine Params.default defaultFont := by
  simp [newMachine, load_defaultFont, State.reset]

/-- The invariant of a new machine, whatever its parameters and font. -/
theorem newMachine_inv {p : Params} (font : Vector Byte 80) (h : 1 ≤ p.stackDepth) :
    (newMachine p font).Inv where
  memory := newMachine_mem_wf p font
  hasStack := h
  depth := Nat.zero_le _
  entries := by simp [newMachine, State.reset]
  pcBound := by simp [newMachine, State.reset]
  budgetMost := by simp [newMachine, State.reset, frameBudget]

/-- Settles O15: the reset state is a new machine too. -/
theorem resetMeetsMachineInvariant : Obligations.ResetMeetsMachineInvariant := by
  refine ⟨?_, fun p font => newMachine_inv font⟩
  rw [reset_eq_newMachine]
  exact newMachine_inv defaultFont (by decide)

theorem newMachine_reg (p : Params) (font : Vector Byte 80) (k : RegIdx) :
    (newMachine p font).reg k = 0#8 := by
  simp [newMachine, State.reg, State.reset]

theorem newMachine_fbByte (p : Params) (font : Vector Byte 80) {j : Nat} (hj : j < 256) :
    fbByte (newMachine p font).fb j = 0#8 := by
  simp [newMachine, fbByte, State.reset, Vector.getD, hj]

theorem newMachine_read_font (p : Params) (font : Vector Byte 80) {a : Nat} (h : a < 80) :
    (newMachine p font).mem.read a = font[a] := by
  have := Memory.read_load_inside Memory.wf_nil font.toList (a := 0) (j := a)
    (by simp [memSize]) (by simpa using h)
  simpa using this

theorem newMachine_read_of_ge (p : Params) (font : Vector Byte 80) {a : Nat} (h : 80 ≤ a) :
    (newMachine p font).mem.read a = 0#8 := by
  rw [newMachine_mem, Memory.read_load_outside _ _ (by simp [h]), Memory.read_nil,
    unlistedByte_of_ge h]

/-- Settles O16: the fields of `newMachine` are read off, memory through the load of the font. -/
theorem resetLeavesSpecifiedValues : Obligations.ResetLeavesSpecifiedValues := by
  refine ⟨reset_eq_newMachine, ?_⟩
  rintro p font _ rfl
  exact ⟨newMachine_reg p font, rfl, rfl, rfl, rfl, rfl, fun j hj => newMachine_fbByte p font hj,
    rfl, rfl, rfl, fun a h => newMachine_read_font p font h, fun a h => newMachine_read_of_ge p font h⟩

end Sys2Proof.Machine

/-! SUPPORT. The machine's invariant (10_state.md R17, R18, 20_memory.md R40, 49_frame_driver.md R191) along a
step. -/

namespace Sys2Proof.Machine

theorem raise_inv {f : Fault} {s t : State} (hs : s.Inv) (h : raise f s = .next t) : t.Inv := by
  cases h
  exact { hs with budgetMost := by simp }

theorem State.Inv.setPc {s : State} (hs : s.Inv) {v : Word} (hv : v.toNat ≤ 4350) :
    (s.setPc v).Inv :=
  { hs with pcBound := hv }

theorem State.Inv.enterFrame {s : State} (hs : s.Inv) : s.enterFrame.Inv where
  memory := hs.memory
  hasStack := hs.hasStack
  depth := hs.depth
  entries := hs.entries
  pcBound := hs.pcBound
  budgetMost := by
    rw [State.enterFrame_budget]
    split
    · exact le_refl _
    · exact hs.budgetMost

/-- A store keeps the canonical form: it writes below 4096 or faults. -/
theorem storeAtIndex_mem_wf {i : Instr} {bs : List Byte} {s t : State} (hs : s.mem.wf = true)
    (h : storeAtIndex i bs s = .next t) : t.mem.wf = true := by
  rw [storeAtIndex, State.writeBytes_eq] at h
  by_cases hin : bs = [] ∨ s.indexAddr 0 + bs.length ≤ memSize
  · rw [if_pos hin] at h
    cases h
    rcases hin with rfl | hin
    · exact hs
    · exact Memory.wf_load hs bs hin
  · rw [if_neg hin] at h
    cases h
    exact hs

theorem exec_mem_wf {i : Instr} {s t : State} (h : exec i s = .next t) (hs : s.mem.wf = true) :
    t.mem.wf = true := by
  cases i
  case ldBVx x | ldMemVx x => exact storeAtIndex_mem_wf hs h
  all_goals
    rw [(exec_keeps h).2 (by simp [partsWritten])]
    exact hs

/-- An instruction pays, or faults and leaves no budget. -/
theorem exec_budget_le {i : Instr} {s t : State} (h : exec i s = .next t) :
    t.budget ≤ max s.budget 0 := by
  cases exec_faultsOrPays h with
  | faults f hf => cases hf; exact le_max_right _ _
  | pays u c hu hc ht =>
    have hb : u.budget = s.budget := hu.1 .budget (by cases i <;> simp [partsWritten])
    subst ht
    rw [State.charge_budget]
    omega

/-- The call stack after an instruction: as before, with `pc` pushed where there was room, or popped. -/
theorem exec_stack {i : Instr} {s t : State} (h : exec i s = .next t) :
    t.stack = s.stack ∨
    (s.stack.length < s.params.stackDepth ∧ t.stack = s.stack ++ [s.pc]) ∨
    ∃ v, s.stack = t.stack ++ [v] := by
  cases i
  case call nnn =>
    rcases Nat.lt_or_ge s.stack.length s.params.stackDepth with hroom | hfull
    · rw [exec, execCall_room hroom] at h
      cases h
      exact .inr (.inl ⟨hroom, rfl⟩)
    · rw [exec, execCall_full hfull] at h
      cases h
      exact .inl rfl
  case ret =>
    rcases s.stack.eq_nil_or_concat' with hs | ⟨vs, v, hs⟩
    · rw [exec, execRet_empty hs] at h
      cases h
      exact .inl rfl
    · rw [exec, execRet_append hs] at h
      cases h
      exact .inr (.inr ⟨v, hs⟩)
  all_goals exact .inl (exec_sameBut h .stack (by simp [partsWritten]))

theorem pcAfterSkip_le {p q : Word} {P : Prop} (h : pcAfterSkip p q P) (hhi : p.toNat ≤ 4096) :
    q.toNat ≤ 4350 := by
  obtain ⟨htaken, hnot⟩ := h
  by_cases hP : P
  · rw [htaken hP, BitVec.toNat_add, BitVec.toNat_ofNat]
    omega
  · rw [hnot hP]
    omega

/-- Entered after a fetch, an instruction leaves `pc` at most 4350 (10_state.md R17): the largest target is
that of JP V0, 4095 + 255. -/
theorem pcAfter_le {i : Instr} {s : State} {p q : Word} (h : pcAfter i s p q)
    (hs : ∀ v ∈ s.stack, v.toNat ≤ 4096) (hlo : 2 ≤ p.toNat) (hhi : p.toNat ≤ 4096) :
    q.toNat ≤ 4350 := by
  cases i
  case jp nnn =>
    have hq : q.toNat = nnn.toNat := h
    omega
  case jpV0 nnn =>
    have hq : q.toNat = nnn.toNat + (s.reg 0#4).toNat := h
    omega
  case call nnn =>
    obtain ⟨hroom, hfull⟩ := h
    rcases Nat.lt_or_ge s.stack.length s.params.stackDepth with hlt | hge
    · rw [hroom hlt]
      omega
    · rw [hfull hge]
      omega
  case ret =>
    rcases h with ⟨vs, hvs⟩ | ⟨rfl, -⟩
    · have := hs q (by simp [hvs])
      omega
    · omega
  case ldVxK x =>
    rcases h with ⟨rfl, -⟩ | ⟨rfl, -⟩
    · rw [BitVec.toNat_sub, BitVec.toNat_ofNat]
      omega
    · omega
  case seVxNn x nn | sneVxNn x nn => exact pcAfterSkip_le h hhi
  case seVxVy x y n | sneVxVy x y n => exact pcAfterSkip_le h hhi
  case skp x | sknp x => exact pcAfterSkip_le h hhi
  all_goals
    rw [show q = p from h]
    omega

theorem exec_stack_length_le {i : Instr} {s t : State} (h : exec i s = .next t)
    (hs : s.stack.length ≤ s.params.stackDepth) : t.stack.length ≤ s.params.stackDepth := by
  rcases exec_stack h with heq | ⟨hroom, heq⟩ | ⟨v, heq⟩
  · rwa [heq]
  · rw [heq, List.length_append]
    exact hroom
  · rw [heq, List.length_append] at hs
    exact Nat.le_of_succ_le hs

/-- What holds of every entry and of `pc`, which a CALL pushes, holds of every entry afterwards. -/
theorem exec_stack_entries {P : Word → Prop} {i : Instr} {s t : State} (h : exec i s = .next t)
    (hs : ∀ v ∈ s.stack, P v) (hpc : P s.pc) : ∀ v ∈ t.stack, P v := by
  rcases exec_stack h with heq | ⟨-, heq⟩ | ⟨w, heq⟩
  · rwa [heq]
  · rw [heq]
    simpa [or_imp, forall_and] using ⟨hs, hpc⟩
  · exact fun v hv => hs v (heq ▸ List.mem_append_left _ hv)

/-- The invariant through one instruction, entered with `pc` as a fetch leaves it: 2 to 4096. -/
theorem exec_inv {i : Instr} {s t : State} (h : exec i s = .next t) (hs : s.Inv)
    (hlo : 2 ≤ s.pc.toNat) (hhi : s.pc.toNat ≤ 4096) : t.Inv where
  memory := exec_mem_wf h hs.memory
  hasStack := exec_params h ▸ hs.hasStack
  depth := exec_params h ▸ exec_stack_length_le h hs.depth
  entries := exec_stack_entries h hs.entries ⟨hlo, hhi⟩
  pcBound := pcAfter_le (pcAfterEveryInstruction i s t h) (fun v hv => (hs.entries v hv).2) hlo hhi
  budgetMost := (exec_budget_le h).trans (max_le hs.budgetMost (Int.natCast_nonneg _))

/-- The fetch reads below 4095, so an instruction is entered with `pc` between 2 and 4096. -/
theorem instructionStep_inv {s t : State} (hs : s.Inv) (h : instructionStep s = .next t) :
    t.Inv := by
  rw [instructionStep, fetchDecode_eq] at h
  by_cases hpc : 4095 ≤ s.pc.toNat
  · rw [if_pos hpc] at h
    exact raise_inv hs h
  · rw [if_neg hpc] at h
    have hnext : (s.pc + 2#16).toNat = s.pc.toNat + 2 := by
      rw [BitVec.toNat_add, BitVec.toNat_ofNat]
      omega
    have hfetched : (s.setPc (s.pc + 2#16)).Inv := hs.setPc (by omega)
    cases hd : decode (s.wordAt s.pc.toNat) with
    | none =>
      simp only [hd] at h
      exact raise_inv hfetched h
    | some i =>
      simp only [hd] at h
      exact exec_inv h hfetched (by rw [State.setPc_pc]; omega) (by rw [State.setPc_pc]; omega)

/-- Settles O14: a halted machine answers no next state, and a running one runs an instruction step after
the start of a frame; both keep the invariant. -/
theorem stepKeepsMachineInvariant : Obligations.StepKeepsMachineInvariant := by
  intro s t hs h
  cases hf : s.fault with
  | some f => simp [step, hf] at h
  | none =>
    rw [step_running hf] at h
    exact instructionStep_inv hs.enterFrame h

end Sys2Proof.Machine

/-! SUPPORT. What no instruction reads: the sound timer and the budget, and, DRW apart, the framebuffer. -/

namespace Sys2Proof.Machine

/-- The state with another sound timer, framebuffer and budget. -/
def State.setOutputs (s : State) (v : Byte) (fb : Framebuffer) (b : Int) : State :=
  { s with st := v, fb := fb, budget := b }

/-! ## The operations and instructions that can fail or branch -/

section Unread
variable {s t : State} {v : Byte} {fb : Framebuffer} {b : Int}

theorem raise_setOutputs {f : Fault} (h : raise f s = .next t) :
    ∃ c, raise f (s.setOutputs v fb b) = .next (t.setOutputs v fb c) := by
  cases h
  exact ⟨_, rfl⟩

theorem State.readBytes_setOutputs (a n : Nat) :
    (s.setOutputs v fb b).readBytes a n = s.readBytes a n := by
  rw [State.readBytes_eq, State.readBytes_eq]
  rfl

theorem keySkip_setOutputs {x : RegIdx} {held : Bool} (h : keySkip x held s = .next t) :
    ∃ c, keySkip x held (s.setOutputs v fb b) = .next (t.setOutputs v fb c) := by
  rcases Nat.lt_or_ge 15 (s.reg x).toNat with hkey | hkey
  · rw [keySkip_noKey held hkey] at h
    rw [keySkip_noKey (s := s.setOutputs v fb b) held hkey]
    exact raise_setOutputs h
  · rw [keySkip_key held hkey] at h
    rw [keySkip_key (s := s.setOutputs v fb b) held hkey]
    cases h
    exact ⟨_, rfl⟩

theorem storeAtIndex_setOutputs {i : Instr} {bs : List Byte} (hne : bs ≠ [])
    (h : storeAtIndex i bs s = .next t) :
    ∃ c, storeAtIndex i bs (s.setOutputs v fb b) = .next (t.setOutputs v fb c) := by
  rcases Nat.lt_or_ge memSize (s.i.toNat + bs.length) with hout | hin
  · rw [storeAtIndex_outside hne hout] at h
    rw [storeAtIndex_outside (s := s.setOutputs v fb b) hne hout]
    exact raise_setOutputs h
  · rw [storeAtIndex_inside hin] at h
    rw [storeAtIndex_inside (s := s.setOutputs v fb b) hin]
    cases h
    exact ⟨_, rfl⟩

theorem execCall_setOutputs {nnn : Addr12} (h : execCall nnn s = .next t) :
    ∃ c, execCall nnn (s.setOutputs v fb b) = .next (t.setOutputs v fb c) := by
  rcases Nat.lt_or_ge s.stack.length s.params.stackDepth with hroom | hfull
  · rw [execCall_room hroom] at h
    rw [execCall_room (s := s.setOutputs v fb b) hroom]
    cases h
    exact ⟨_, rfl⟩
  · rw [execCall_full hfull] at h
    rw [execCall_full (s := s.setOutputs v fb b) hfull]
    exact raise_setOutputs h

theorem execRet_setOutputs (h : execRet s = .next t) :
    ∃ c, execRet (s.setOutputs v fb b) = .next (t.setOutputs v fb c) := by
  rcases s.stack.eq_nil_or_concat' with hs | ⟨vs, w, hs⟩
  · rw [execRet_empty hs] at h
    rw [execRet_empty (s := s.setOutputs v fb b) hs]
    exact raise_setOutputs h
  · rw [execRet_append hs] at h
    rw [execRet_append (s := s.setOutputs v fb b) hs]
    cases h
    exact ⟨_, rfl⟩

theorem execLdVxMem_loads {x : RegIdx} {bytes : List Byte}
    (hr : s.readBytes (s.indexAddr 0) (x.toNat + 1) = .ok bytes) :
    execLdVxMem x s =
      .next ({ s with regs := fillRegs s.regs 0 bytes }.charge (openCost (.ldVxMem x) s)) := by
  rw [execLdVxMem, hr]

theorem execLdVxMem_raises {x : RegIdx} {f : Fault}
    (hr : s.readBytes (s.indexAddr 0) (x.toNat + 1) = .error f) : execLdVxMem x s = raise f s := by
  rw [execLdVxMem, hr]

theorem execLdVxMem_setOutputs {x : RegIdx} (h : execLdVxMem x s = .next t) :
    ∃ c, execLdVxMem x (s.setOutputs v fb b) = .next (t.setOutputs v fb c) := by
  have hread := State.readBytes_setOutputs (s := s) (v := v) (fb := fb) (b := b) (s.indexAddr 0) (x.toNat + 1)
  cases hr : s.readBytes (s.indexAddr 0) (x.toNat + 1) with
  | error f =>
    rw [execLdVxMem_raises hr] at h
    rw [execLdVxMem_raises (s := s.setOutputs v fb b) (hread.trans hr)]
    exact raise_setOutputs h
  | ok bytes =>
    rw [execLdVxMem_loads hr] at h
    rw [execLdVxMem_loads (s := s.setOutputs v fb b) (hread.trans hr)]
    cases h
    exact ⟨_, rfl⟩

/-- DRW of a sprite that lies in memory. -/
theorem execDrw_draws {x y : RegIdx} {n : Nibble} {bytes : List Byte} (h : s.sprite n = .ok bytes) :
    execDrw x y n s =
      .next (({ s with fb := (drawSprite (s.reg x) (s.reg y) 0 bytes s.fb false).1 }.setReg flagReg
        (flagByte (drawSprite (s.reg x) (s.reg y) 0 bytes s.fb false).2)).charge
          (openCost (.drw x y n) s)) := by
  simp only [execDrw, h]

theorem execDrw_raises {x y : RegIdx} {n : Nibble} {f : Fault} (h : s.sprite n = .error f) :
    execDrw x y n s = raise f s := by
  simp only [execDrw, h]

/-- DRW reads the framebuffer, so only the sound timer and the budget may differ. -/
theorem execDrw_setOutputs {x y : RegIdx} {n : Nibble} (h : execDrw x y n s = .next t) :
    ∃ c, execDrw x y n (s.setOutputs v s.fb b) = .next (t.setOutputs v t.fb c) := by
  have hsprite : (s.setOutputs v s.fb b).sprite n = s.sprite n := State.readBytes_setOutputs _ _
  cases hr : s.sprite n with
  | error f =>
    rw [execDrw_raises hr] at h
    rw [execDrw_raises (s := s.setOutputs v s.fb b) (hsprite.trans hr)]
    cases h
    exact ⟨_, rfl⟩
  | ok bytes =>
    rw [execDrw_draws hr] at h
    rw [execDrw_draws (s := s.setOutputs v s.fb b) (hsprite.trans hr)]
    cases h
    exact ⟨_, rfl⟩

theorem execLdVxK_setOutputs {x : RegIdx} (h : execLdVxK x s = .next t) :
    ∃ c, execLdVxK x (s.setOutputs v fb b) = .next (t.setOutputs v fb c) := by
  by_cases hk : s.keys = 0#16
  · rw [execLdVxK, if_pos hk] at h
    rw [execLdVxK, if_pos (show (s.setOutputs v fb b).keys = 0#16 from hk)]
    cases h
    exact ⟨_, rfl⟩
  · rw [execLdVxK, if_neg hk] at h
    rw [execLdVxK, if_neg (show ¬ (s.setOutputs v fb b).keys = 0#16 from hk)]
    cases h
    exact ⟨_, rfl⟩

end Unread

/-! ## All instructions -/

/-- An instruction does the same in the state with other outputs: it overwrites the ones it writes with the same
values and carries the others over. The framebuffer must be the same for DRW, which reads it. -/
theorem exec_setOutputs {i : Instr} {s t : State} (v : Byte) {fb : Framebuffer} (b : Int)
    (h : exec i s = .next t) (hfb : fb = s.fb ∨ ∀ x y n, i ≠ .drw x y n) :
    ∃ c, exec i (s.setOutputs v fb b) =
      .next (t.setOutputs (if .st ∈ partsWritten i then t.st else v)
        (if .fb ∈ partsWritten i then t.fb else fb) c) := by
  cases i
  case drw x y n =>
    obtain rfl : fb = s.fb := hfb.resolve_right fun hdrw => hdrw x y n rfl
    exact execDrw_setOutputs h
  case call nnn => exact execCall_setOutputs h
  case ret => exact execRet_setOutputs h
  case skp x | sknp x => exact keySkip_setOutputs h
  case ldBVx x => exact storeAtIndex_setOutputs (List.cons_ne_nil _ _) h
  case ldMemVx x =>
    exact storeAtIndex_setOutputs (List.ne_nil_of_length_pos (by simp)) h
  case ldVxMem x => exact execLdVxMem_setOutputs h
  case ldVxK x => exact execLdVxK_setOutputs h
  case sys nnn => exact raise_setOutputs h
  all_goals
    cases h
    exact ⟨_, rfl⟩

/-- Settles O56, with the framebuffer of `s`: where the instruction carries it over, it is that of `t`. -/
theorem soundTimerIsNeverRead : Obligations.SoundTimerIsNeverRead := by
  intro i s t v h
  obtain ⟨c, hc⟩ := exec_setOutputs v s.budget h (.inl rfl)
  have hfb : (if .fb ∈ partsWritten i then t.fb else s.fb) = t.fb := by
    split
    · rfl
    · next hw => exact (exec_sameBut h .fb (by simpa using hw)).symm
  rw [hfb] at hc
  refine ⟨_, c, hc, ?_⟩
  split
  · exact .inr rfl
  · exact .inl rfl

/-- Settles O58, with the sound timer of `s`: where the instruction carries it over, it is that of `t`. -/
theorem framebufferIsReadOnlyByDraw : Obligations.FramebufferIsReadOnlyByDraw := by
  intro i s t fb h hdrw
  obtain ⟨c, hc⟩ := exec_setOutputs s.st s.budget h (.inr hdrw)
  have hst : (if .st ∈ partsWritten i then t.st else s.st) = t.st := by
    split
    · rfl
    · next hw => exact (exec_sameBut h .st (by simpa using hw)).symm
  rw [hst] at hc
  refine ⟨_, c, hc, ?_⟩
  split
  · exact .inr rfl
  · exact .inl rfl

end Sys2Proof.Machine

/-! SUPPORT. Memory after the two stores at `I` (44_index_memory.md R143, R144), as the next fetch and every
other read see it (20_memory.md R40, R50). -/

namespace Sys2Proof.Machine

/-- Settles O51: of the parts an instruction writes, memory is one for LD B and LD [I], Vx alone. -/
theorem memoryHasOnlyItsWriters : Obligations.MemoryHasOnlyItsWriters := by
  intro i s t h hdigits hblock
  refine exec_sameBut h .mem ?_
  cases i
  case ldBVx x => exact absurd rfl (hdigits x)
  case ldMemVx x => exact absurd rfl (hblock x)
  all_goals simp [partsWritten]

/-- A read after a load that fits: the byte loaded there, or as before. -/
theorem Memory.read_load {m : Memory} (hm : m.wf = true) {bs : List Byte} {a : Nat}
    (h : a + bs.length ≤ memSize) (k : Nat) :
    (m.load a bs).read k =
      if hk : a ≤ k ∧ k < a + bs.length then bs[k - a]'(by omega) else m.read k := by
  split
  · next hk =>
    have hin := Memory.read_load_inside hm bs h (j := k - a) (by omega)
    rwa [Nat.add_sub_cancel' hk.1] at hin
  · exact Memory.read_load_outside m bs (by omega)

theorem read_load_regsUpTo {x : RegIdx} {s : State} (hm : s.mem.wf = true)
    (hin : s.i.toNat + x.toNat ≤ 4095) (a : Nat) :
    (s.mem.load s.i.toNat (s.regsUpTo x)).read a = byteAfterBlockStore x s a := by
  rw [Memory.read_load hm (by rw [State.length_regsUpTo, memSize]; omega), byteAfterBlockStore]
  simp only [State.length_regsUpTo]
  by_cases ha : s.i.toNat ≤ a ∧ a ≤ s.i.toNat + x.toNat
  · rw [dif_pos (by omega), if_pos ha]
    have hreg : (BitVec.ofNat 4 (a - s.i.toNat)).toNat = a - s.i.toNat := by
      rw [BitVec.toNat_ofNat]
      omega
    rw [← State.getElem_regsUpTo s x _ (by rw [hreg, State.length_regsUpTo]; omega)]
    simp only [hreg]
  · rw [dif_neg (by omega), if_neg ha]

@[simp] theorem length_decimalDigits (v : Byte) : (decimalDigits v).length = 3 := rfl

theorem read_load_decimalDigits {x : RegIdx} {s : State} (hm : s.mem.wf = true)
    (hin : s.i.toNat + 2 ≤ 4095) (a : Nat) :
    (s.mem.load s.i.toNat (decimalDigits (s.reg x))).read a = byteAfterDigitStore x s a := by
  have hfit : s.i.toNat + (decimalDigits (s.reg x)).length ≤ memSize := by
    rw [length_decimalDigits, memSize]
    omega
  have hdigit (j : Nat) (hj : j < 3) :
      (s.mem.load s.i.toNat (decimalDigits (s.reg x))).read (s.i.toNat + j) =
        (decimalDigits (s.reg x))[j] := Memory.read_load_inside hm _ hfit hj
  rw [byteAfterDigitStore]
  split_ifs with h0 h1 h2
  · rw [h0]; exact hdigit 0 (by decide)
  · rw [h1]; exact hdigit 1 (by decide)
  · rw [h2]; exact hdigit 2 (by decide)
  · exact Memory.read_load_outside _ _ (by rw [length_decimalDigits]; omega)

/-- The fetch of a word that lies in memory (49_frame_driver.md R192). -/
theorem fetch_inside {s : State} (h : s.pc.toNat ≤ 4094) :
    fetch s = .ok (s.mem.read s.pc.toNat ++ s.mem.read (s.pc.toNat + 1), s.setPc (s.pc + 2#16)) := by
  rw [fetch, if_neg (by omega)]
  rfl

/-- A store at `I` that fits, then a fetch: nothing stands between the two, so the fetch reads the memory the
store leaves, whatever the bytes. -/
theorem storeAtIndex_then_fetch {i : Instr} {bs : List Byte} {s : State} {after : Nat → Byte}
    (hpc : s.pc.toNat ≤ 4094) (hin : s.i.toNat + bs.length ≤ memSize)
    (hafter : ∀ a, (s.mem.load s.i.toNat bs).read a = after a) :
    ∃ t, storeAtIndex i bs s = .next t ∧
      fetch t = .ok (after s.pc.toNat ++ after (s.pc.toNat + 1), t.setPc (s.pc + 2#16)) := by
  refine ⟨_, storeAtIndex_inside hin, ?_⟩
  rw [← hafter, ← hafter]
  exact fetch_inside hpc

/-- Settles O20: both stores are a store at `I`, and what each leaves in memory is its lemma above. -/
theorem storeIsSeenByNextFetch : Obligations.StoreIsSeenByNextFetch := by
  intro x s hm hpc
  refine ⟨fun hin => storeAtIndex_then_fetch hpc ?_ (read_load_regsUpTo hm hin),
    fun hin => storeAtIndex_then_fetch hpc ?_ (read_load_decimalDigits hm hin)⟩
  · rw [State.length_regsUpTo, memSize]
    omega
  · rw [length_decimalDigits, memSize]
    omega

end Sys2Proof.Machine

/-! SUPPORT. The fields of a word and the formats that put them together (30_encoding.md R60 to R62). -/

namespace Sys2Proof

/-! ## A field of a format is the operand that stands there -/

@[simp] theorem fieldA_formNNN (a : Nibble) (nnn : Addr12) : fieldA (formNNN a nnn) = a :=
  BitVec.extractLsb'_append_eq_left

@[simp] theorem fieldNNN_formNNN (a : Nibble) (nnn : Addr12) : fieldNNN (formNNN a nnn) = nnn :=
  BitVec.extractLsb'_append_eq_right

theorem formXNN_eq_formNNN (a : Nibble) (x : RegIdx) (nn : Byte) :
    formXNN a x nn = formNNN a (x ++ nn) := BitVec.append_assoc

@[simp] theorem fieldA_formXNN (a : Nibble) (x : RegIdx) (nn : Byte) : fieldA (formXNN a x nn) = a := by
  rw [formXNN_eq_formNNN, fieldA_formNNN]

@[simp] theorem fieldX_formXNN (a : Nibble) (x : RegIdx) (nn : Byte) : fieldX (formXNN a x nn) = x :=
  (BitVec.extractLsb'_append_eq_of_le (w := 8) (by decide)).trans
    BitVec.extractLsb'_append_eq_right

@[simp] theorem fieldNN_formXNN (a : Nibble) (x : RegIdx) (nn : Byte) :
    fieldNN (formXNN a x nn) = nn := BitVec.extractLsb'_append_eq_right

theorem formXYN_eq_formXNN (a : Nibble) (x y : RegIdx) (n : Nibble) :
    formXYN a x y n = formXNN a x (y ++ n) := BitVec.append_assoc

@[simp] theorem fieldA_formXYN (a : Nibble) (x y : RegIdx) (n : Nibble) :
    fieldA (formXYN a x y n) = a := by
  rw [formXYN_eq_formXNN, fieldA_formXNN]

@[simp] theorem fieldX_formXYN (a : Nibble) (x y : RegIdx) (n : Nibble) :
    fieldX (formXYN a x y n) = x := by
  rw [formXYN_eq_formXNN, fieldX_formXNN]

@[simp] theorem fieldY_formXYN (a : Nibble) (x y : RegIdx) (n : Nibble) :
    fieldY (formXYN a x y n) = y :=
  (BitVec.extractLsb'_append_eq_of_le (w := 4) (by decide)).trans
    BitVec.extractLsb'_append_eq_right

@[simp] theorem fieldN_formXYN (a : Nibble) (x y : RegIdx) (n : Nibble) :
    fieldN (formXYN a x y n) = n := BitVec.extractLsb'_append_eq_right

/-! ## The fields of a word give the word back (R61) -/

theorem fieldNNN_eq_append (w : Word) : fieldNNN w = fieldX w ++ fieldNN w :=
  (BitVec.extractLsb'_append_extractLsb'_eq_extractLsb' (start₁ := 0) (len₁ := 8) rfl).symm

theorem fieldNN_eq_append (w : Word) : fieldNN w = fieldY w ++ fieldN w :=
  (BitVec.extractLsb'_append_extractLsb'_eq_extractLsb' (start₁ := 0) (len₁ := 4) rfl).symm

theorem formNNN_fields (w : Word) : formNNN (fieldA w) (fieldNNN w) = w :=
  BitVec.extractLsb'_append_extractLsb' (len := 12) (w := 4)

theorem formXNN_fields (w : Word) : formXNN (fieldA w) (fieldX w) (fieldNN w) = w := by
  rw [formXNN_eq_formNNN, ← fieldNNN_eq_append, formNNN_fields]

theorem formXYN_fields (w : Word) : formXYN (fieldA w) (fieldX w) (fieldY w) (fieldN w) = w := by
  rw [formXYN_eq_formXNN, ← fieldNN_eq_append, formXNN_fields]

theorem formNNN_of_fieldA {w : Word} {a : Nibble} (h : fieldA w = a) : formNNN a (fieldNNN w) = w := by
  rw [← h, formNNN_fields]

theorem formXNN_of_fieldA {w : Word} {a : Nibble} (h : fieldA w = a) :
    formXNN a (fieldX w) (fieldNN w) = w := by
  rw [← h, formXNN_fields]

theorem formXYN_of_fieldA {w : Word} {a : Nibble} (h : fieldA w = a) :
    formXYN a (fieldX w) (fieldY w) (fieldN w) = w := by
  rw [← h, formXYN_fields]

/-! ## The fields as numbers (R61) -/

theorem toNat_fieldA (w : Word) : (fieldA w).toNat = w.toNat / 4096 := by
  rw [fieldA, BitVec.extractLsb'_toNat, Nat.shiftRight_eq_div_pow]
  omega

theorem toNat_fieldX (w : Word) : (fieldX w).toNat = w.toNat / 256 % 16 := by
  rw [fieldX, BitVec.extractLsb'_toNat, Nat.shiftRight_eq_div_pow]

theorem toNat_fieldY (w : Word) : (fieldY w).toNat = w.toNat / 16 % 16 := by
  rw [fieldY, BitVec.extractLsb'_toNat, Nat.shiftRight_eq_div_pow]

theorem toNat_fieldN (w : Word) : (fieldN w).toNat = w.toNat % 16 := by
  rw [fieldN, BitVec.extractLsb'_toNat, Nat.shiftRight_zero]

theorem toNat_fieldNN (w : Word) : (fieldNN w).toNat = w.toNat % 256 := by
  rw [fieldNN, BitVec.extractLsb'_toNat, Nat.shiftRight_zero]

theorem fieldA_eq_iff {w : Word} {a : Nibble} : fieldA w = a ↔ w.toNat / 4096 = a.toNat := by
  rw [← toNat_fieldA, BitVec.toNat_inj]

theorem fieldNN_mem_iff {w : Word} {l : List Byte} :
    fieldNN w ∈ l ↔ w.toNat % 256 ∈ l.map BitVec.toNat := by
  rw [← toNat_fieldNN, List.mem_map_of_injective fun _ _ => BitVec.eq_of_toNat_eq]

theorem toNat_append_byte {m : Nat} (v : BitVec m) (b : Byte) :
    (v ++ b).toNat = v.toNat * 256 + b.toNat := by
  rw [BitVec.toNat_append, ← Nat.shiftLeft_add_eq_or_of_lt b.isLt, Nat.shiftLeft_eq]

/-- Settles O6: each field is a slice of the word, and slices that meet join to one slice. -/
theorem wordFieldsAreBitSlices : Obligations.WordFieldsAreBitSlices := by
  intro w
  refine ⟨toNat_fieldA w, toNat_fieldX w, toNat_fieldY w, toNat_fieldN w, rfl,
    fieldNNN_eq_append w, fieldNN_eq_append w, ?_⟩
  rw [fieldNNN_eq_append, toNat_append_byte, toNat_fieldX]
  rfl

/-- Settles O7: the word is the two bytes one after the other, and the decoder takes both off the list
before it looks at them. -/
theorem instructionsAreTwoBigEndianBytes : Obligations.InstructionsAreTwoBigEndianBytes := by
  intro op0 op1 rest
  exact ⟨toNat_append_byte op0 op1, BitVec.extractLsb'_append_eq_left,
    BitVec.extractLsb'_append_eq_right, rfl⟩

end Sys2Proof

/-! SUPPORT. The search of the opcode table (30_encoding.md R75): the primary nibble selects the rows of one
group, as it does in the decoder (R63), and the mask of the group's rows says what selects among them. -/

namespace Sys2Proof

open Laws.EncodesToItsRow (formNNN_and formXNN_and_byte formXYN_and_nibble)

/-! ## The rows of a group -/

/-- The rows of the table for one primary nibble, in the table's order. -/
def rowsOfGroup (a : Nibble) : List OpcodeRow :=
  (disjointRows ++ [rowOf (.sys 0)]).filter fun r => fieldA r.pattern == a

/-- The groups in which the primary nibble alone names the operation (R64, R69). -/
def singleGroups : List Nibble :=
  [0x1#4, 0x2#4, 0x3#4, 0x4#4, 0x5#4, 0x6#4, 0x7#4, 0x9#4, 0xA#4, 0xB#4, 0xC#4, 0xD#4]

theorem nibble_groups (a : Nibble) :
    a = 0x0#4 ∨ a = 0x8#4 ∨ a = 0xE#4 ∨ a = 0xF#4 ∨ a ∈ singleGroups := by
  revert a
  decide

/-! ## The search within a group -/

/-- Every row's mask holds the primary nibble, so only rows of the word's group can match. -/
theorem tableRow_eq_rowsOfGroup (w : Word) :
    tableRow w = (rowsOfGroup (fieldA w)).find? fun r => r.matchesWord w := by
  have hmask : ∀ r ∈ disjointRows ++ [rowOf (.sys 0)], fieldA r.mask = 0xF#4 := by decide
  rw [tableRow, rowsOfGroup, List.find?_filter]
  refine List.find?_congr fun r hr => ?_
  have hA (h : w &&& r.mask = r.pattern) : fieldA r.pattern = fieldA w := by
    rw [← h, fieldA, BitVec.extractLsb'_and, ← fieldA, ← fieldA, hmask r hr]
    exact BitVec.and_allOnes
  rw [OpcodeRow.matchesWord, Bool.eq_iff_iff]
  simpa using hA

/-- In a group with a sub-opcode `N` the row is the one with the word's `N`. -/
theorem tableRow_nibbleGroup {a : Nibble} {w : Word}
    (hrow : ∀ r ∈ rowsOfGroup a,
      r.mask = 0xF00F#16 ∧ r.pattern = formXYN a 0x0#4 0x0#4 (fieldN r.pattern))
    (hA : fieldA w = a) :
    tableRow w = (rowsOfGroup a).find? fun r => fieldN r.pattern == fieldN w := by
  have hmasked : w &&& 0xF00F#16 = formXYN a 0x0#4 0x0#4 (fieldN w) := by
    rw [← formXYN_and_nibble a (fieldX w) (fieldY w), formXYN_of_fieldA hA]
  rw [tableRow_eq_rowsOfGroup, hA]
  refine List.find?_congr fun r hr => ?_
  obtain ⟨hm, hp⟩ := hrow r hr
  rw [OpcodeRow.matchesWord, hm, hmasked, Bool.eq_iff_iff, beq_iff_eq, beq_iff_eq]
  exact ⟨fun h => by rw [← h, fieldN_formXYN], fun h => by rw [hp, h]⟩

/-- In a group with a sub-opcode `NN` the row is the one with the word's `NN`. -/
theorem tableRow_byteGroup {a : Nibble} {w : Word}
    (hrow : ∀ r ∈ rowsOfGroup a,
      r.mask = 0xF0FF#16 ∧ r.pattern = formXNN a 0x0#4 (fieldNN r.pattern))
    (hA : fieldA w = a) :
    tableRow w = (rowsOfGroup a).find? fun r => fieldNN r.pattern == fieldNN w := by
  have hmasked : w &&& 0xF0FF#16 = formXNN a 0x0#4 (fieldNN w) := by
    rw [← formXNN_and_byte a (fieldX w), formXNN_of_fieldA hA]
  rw [tableRow_eq_rowsOfGroup, hA]
  refine List.find?_congr fun r hr => ?_
  obtain ⟨hm, hp⟩ := hrow r hr
  rw [OpcodeRow.matchesWord, hm, hmasked, Bool.eq_iff_iff, beq_iff_eq, beq_iff_eq]
  exact ⟨fun h => by rw [← h, fieldNN_formXNN], fun h => by rw [hp, h]⟩

/-- A row with the mask of the primary nibble is matched by every word of its group. -/
theorem matchesWord_groupMask {r : OpcodeRow} {w : Word} (hm : r.mask = 0xF000#16)
    (hp : r.pattern = formNNN (fieldA w) 0x000#12) : r.matchesWord w = true := by
  have hmasked : w &&& 0xF000#16 = formNNN (fieldA w) 0x000#12 := by
    rw [← formNNN_and (fieldA w) (fieldNNN w), formNNN_fields]
  rw [OpcodeRow.matchesWord, hm, hp, hmasked, beq_self_eq_true]

/-- A row with the mask of all bits is matched by one word only. -/
theorem matchesWord_fullMask {r : OpcodeRow} (hm : r.mask = 0xFFFF#16) (w : Word) :
    r.matchesWord w = (w == r.pattern) := by
  rw [OpcodeRow.matchesWord, hm]
  exact congrArg (· == r.pattern) BitVec.and_allOnes

/-- In group 0x0 SYS is the row when the word is neither that of CLS nor that of RET. -/
theorem tableRow_group0 {w : Word} (hA : fieldA w = 0x0#4) :
    tableRow w = some (if w = 0x00E0#16 then rowOf .cls else if w = 0x00EE#16 then rowOf .ret
      else rowOf (.sys 0)) := by
  have hrows : rowsOfGroup 0x0#4 = [rowOf .cls, rowOf .ret, rowOf (.sys 0)] := rfl
  have hsys : (rowOf (.sys 0)).matchesWord w = true := matchesWord_groupMask rfl (by rw [hA]; rfl)
  have hcls : (rowOf .cls).matchesWord w = (w == 0x00E0#16) := matchesWord_fullMask rfl w
  have hret : (rowOf .ret).matchesWord w = (w == 0x00EE#16) := matchesWord_fullMask rfl w
  rw [tableRow_eq_rowsOfGroup, hA, hrows]
  simp only [List.find?_cons, hcls, hret, hsys]
  split_ifs with hc hr
  · rw [beq_iff_eq.2 hc]
  · rw [beq_false_of_ne hc, beq_iff_eq.2 hr]
  · rw [beq_false_of_ne hc, beq_false_of_ne hr]

theorem tableRow_group8 {w : Word} (hA : fieldA w = 0x8#4) :
    tableRow w = (rowsOfGroup 0x8#4).find? fun r => fieldN r.pattern == fieldN w :=
  tableRow_nibbleGroup (by decide) hA

theorem tableRow_groupE {w : Word} (hA : fieldA w = 0xE#4) :
    tableRow w = (rowsOfGroup 0xE#4).find? fun r => fieldNN r.pattern == fieldNN w :=
  tableRow_byteGroup (by decide) hA

theorem tableRow_groupF {w : Word} (hA : fieldA w = 0xF#4) :
    tableRow w = (rowsOfGroup 0xF#4).find? fun r => fieldNN r.pattern == fieldNN w :=
  tableRow_byteGroup (by decide) hA

theorem tableRow_singleGroup {w : Word} {r : OpcodeRow} (hA : fieldA w ∈ singleGroups)
    (hr : rowsOfGroup (fieldA w) = [r]) : tableRow w = some r := by
  have hrow : ∀ a ∈ singleGroups, ∀ r ∈ rowsOfGroup a,
      r.mask = 0xF000#16 ∧ r.pattern = formNNN a 0x000#12 := by decide
  obtain ⟨hm, hp⟩ := hrow _ hA r (by simp [hr])
  rw [tableRow_eq_rowsOfGroup, hr, List.find?_singleton, if_pos (matchesWord_groupMask hm hp)]

/-- A search by key finds nothing exactly when the key is none of the list's. -/
theorem find?_key_eq_none_iff {κ : Type} [BEq κ] [LawfulBEq κ] {rows : List OpcodeRow}
    {key : OpcodeRow → κ} {k : κ} : (rows.find? fun r => key r == k) = none ↔ k ∉ rows.map key := by
  simp

end Sys2Proof

/-! SUPPORT. The decoder (30_encoding.md R63 to R70): what it reads from a word of each group, and that it is
inverse to the encoder. -/

namespace Sys2Proof

/-! ## The decoder, group by group -/

theorem decode_group0 {w : Word} (hA : fieldA w = 0x0#4) : decode w = decodeGroup0 w := by
  simp [decode, hA]

theorem decode_group8 {w : Word} (hA : fieldA w = 0x8#4) : decode w = decodeGroup8 w := by
  simp [decode, hA]

theorem decode_groupE {w : Word} (hA : fieldA w = 0xE#4) : decode w = decodeGroupE w := by
  simp [decode, hA]

theorem decode_groupF {w : Word} (hA : fieldA w = 0xF#4) : decode w = decodeGroupF w := by
  simp [decode, hA]

/-! ## What the decoder reads -/

/-- `i` is the instruction of the word `w`: by the encoder, by the check on instructions and by the table. -/
structure ReadsAs (w : Word) (i : Instr) : Prop where
  encode_eq : encode i = w
  wf : i.wf = true
  row : tableRow w = some (rowOf i)

/-- The check on SYS, said of the word: it is not the word of CLS or RET (48_system.md R180). -/
theorem sysField_iff {nnn : Addr12} :
    sysField nnn = true ↔ formNNN 0x0#4 nnn ≠ 0x00E0#16 ∧ formNNN 0x0#4 nnn ≠ 0x00EE#16 := by
  have hinj (k : Addr12) : formNNN 0x0#4 nnn = formNNN 0x0#4 k ↔ nnn = k :=
    BitVec.append_right_inj _
  simp only [sysField, Bool.and_eq_true, bne_iff_ne, ne_eq, ← hinj]
  rfl

theorem decodeGroup0_readsAs {w : Word} {i : Instr} (hA : fieldA w = 0x0#4)
    (h : decodeGroup0 w = some i) : ReadsAs w i := by
  have hrow := tableRow_group0 hA
  have hw := formNNN_of_fieldA hA
  unfold decodeGroup0 at h
  split_ifs at h hrow with hcls hret <;> cases h
  · exact ⟨hcls.symm, rfl, hrow⟩
  · exact ⟨hret.symm, rfl, hrow⟩
  · exact ⟨hw, sysField_iff.2 (by rw [hw]; exact ⟨hcls, hret⟩), hrow⟩

theorem readsAs_of_fieldN {a n : Nibble} {w : Word} {i : Instr} (hA : fieldA w = a)
    (htable : tableRow w = (rowsOfGroup a).find? fun r => fieldN r.pattern == fieldN w)
    (hN : fieldN w = n) (hi : encode i = formXYN a (fieldX w) (fieldY w) n) (hwf : i.wf = true)
    (hfind : ((rowsOfGroup a).find? fun r => fieldN r.pattern == n) = some (rowOf i)) : ReadsAs w i :=
  ⟨by rw [hi, ← hN, formXYN_of_fieldA hA], hwf, by rw [htable, hN, hfind]⟩

theorem readsAs_of_fieldNN {a : Nibble} {nn : Byte} {w : Word} {i : Instr} (hA : fieldA w = a)
    (htable : tableRow w = (rowsOfGroup a).find? fun r => fieldNN r.pattern == fieldNN w)
    (hNN : fieldNN w = nn) (hi : encode i = formXNN a (fieldX w) nn) (hwf : i.wf = true)
    (hfind : ((rowsOfGroup a).find? fun r => fieldNN r.pattern == nn) = some (rowOf i)) : ReadsAs w i :=
  ⟨by rw [hi, ← hNN, formXNN_of_fieldA hA], hwf, by rw [htable, hNN, hfind]⟩

theorem decodeGroup8_readsAs {w : Word} {i : Instr} (hA : fieldA w = 0x8#4)
    (h : decodeGroup8 w = some i) : ReadsAs w i := by
  unfold decodeGroup8 at h
  split at h <;> cases h
  all_goals next hN => exact readsAs_of_fieldN hA (tableRow_group8 hA) hN rfl rfl rfl

theorem decodeGroupE_readsAs {w : Word} {i : Instr} (hA : fieldA w = 0xE#4)
    (h : decodeGroupE w = some i) : ReadsAs w i := by
  unfold decodeGroupE at h
  split at h <;> cases h
  all_goals next hNN => exact readsAs_of_fieldNN hA (tableRow_groupE hA) hNN rfl rfl rfl

theorem decodeGroupF_readsAs {w : Word} {i : Instr} (hA : fieldA w = 0xF#4)
    (h : decodeGroupF w = some i) : ReadsAs w i := by
  unfold decodeGroupF at h
  split at h <;> cases h
  all_goals next hNN => exact readsAs_of_fieldNN hA (tableRow_groupF hA) hNN rfl rfl rfl

/-- In a group with one operation the decoder reads that operation from every word. -/
theorem decode_singleGroup {w : Word} (h : fieldA w ∈ singleGroups) :
    ∃ i, decode w = some i ∧ ReadsAs w i := by
  have htable {r : OpcodeRow} (hr : rowsOfGroup (fieldA w) = [r]) := tableRow_singleGroup h hr
  simp only [singleGroups, List.mem_cons, List.not_mem_nil, or_false] at h
  obtain hA | hA | hA | hA | hA | hA | hA | hA | hA | hA | hA | hA := h
  all_goals
    simp only [decode, hA]
    refine ⟨_, rfl, ?_, rfl, htable (by rw [hA]; rfl)⟩
    simp only [encode, formNNN_of_fieldA hA, formXNN_of_fieldA hA, formXYN_of_fieldA hA]

/-- What the decoder answers, said once for all groups (R63). -/
theorem decode_readsAs {w : Word} {i : Instr} (h : decode w = some i) : ReadsAs w i := by
  obtain hA | hA | hA | hA | hA := nibble_groups (fieldA w)
  · exact decodeGroup0_readsAs hA (decode_group0 hA ▸ h)
  · exact decodeGroup8_readsAs hA (decode_group8 hA ▸ h)
  · exact decodeGroupE_readsAs hA (decode_groupE hA ▸ h)
  · exact decodeGroupF_readsAs hA (decode_groupF hA ▸ h)
  · obtain ⟨j, hj, hread⟩ := decode_singleGroup hA
    cases hj.symm.trans h
    exact hread

/-! ## The sub-opcodes that the decoder refuses (R66 to R68) -/

/-- The sub-opcodes `N` of group 0x8 (R66). -/
def subopcodes8 : List Nibble := [0x0#4, 0x1#4, 0x2#4, 0x3#4, 0x4#4, 0x5#4, 0x6#4, 0x7#4, 0xE#4]

/-- The sub-opcodes `NN` of group 0xE (R67). -/
def subopcodesE : List Byte := [0x9E#8, 0xA1#8]

/-- The sub-opcodes `NN` of group 0xF (R68). -/
def subopcodesF : List Byte :=
  [0x07#8, 0x0A#8, 0x15#8, 0x18#8, 0x1E#8, 0x29#8, 0x33#8, 0x55#8, 0x65#8]

theorem decodeGroup8_eq_none_iff {w : Word} : decodeGroup8 w = none ↔ fieldN w ∉ subopcodes8 := by
  unfold decodeGroup8
  split <;> simp_all [subopcodes8]

theorem decodeGroupE_eq_none_iff {w : Word} : decodeGroupE w = none ↔ fieldNN w ∉ subopcodesE := by
  unfold decodeGroupE
  split <;> simp_all [subopcodesE]

theorem decodeGroupF_eq_none_iff {w : Word} : decodeGroupF w = none ↔ fieldNN w ∉ subopcodesF := by
  unfold decodeGroupF
  split <;> simp_all [subopcodesF]

theorem decodeGroup0_ne_none (w : Word) : decodeGroup0 w ≠ none := by
  unfold decodeGroup0
  split_ifs <;> simp

/-- The decoder refuses only a sub-opcode, and only of these three groups (R70). -/
theorem decode_eq_none_iff {w : Word} :
    decode w = none ↔
      (fieldA w = 0x8#4 ∧ fieldN w ∉ subopcodes8) ∨ (fieldA w = 0xE#4 ∧ fieldNN w ∉ subopcodesE) ∨
        (fieldA w = 0xF#4 ∧ fieldNN w ∉ subopcodesF) := by
  obtain hA | hA | hA | hA | hA := nibble_groups (fieldA w)
  · simp [decode_group0 hA, hA, decodeGroup0_ne_none]
  · simp [decode_group8 hA, hA, decodeGroup8_eq_none_iff]
  · simp [decode_groupE hA, hA, decodeGroupE_eq_none_iff]
  · simp [decode_groupF hA, hA, decodeGroupF_eq_none_iff]
  · obtain ⟨i, hi, -⟩ := decode_singleGroup hA
    have hne {a : Nibble} (ha : a ∉ singleGroups) : fieldA w ≠ a := ne_of_mem_of_not_mem hA ha
    simp [hi, hne (a := 0x8#4) (by decide), hne (a := 0xE#4) (by decide),
      hne (a := 0xF#4) (by decide)]

/-- SYS is what is left of group 0x0 (R65, 48_system.md R180). -/
theorem decode_eq_sys_iff {w : Word} :
    (∃ nnn, decode w = some (.sys nnn)) ↔ fieldA w = 0x0#4 ∧ w ≠ 0x00E0#16 ∧ w ≠ 0x00EE#16 := by
  constructor
  · rintro ⟨nnn, h⟩
    obtain ⟨rfl, hwf, -⟩ := decode_readsAs h
    exact ⟨fieldA_formNNN _ _, sysField_iff.1 hwf⟩
  · rintro ⟨hA, hcls, hret⟩
    exact ⟨fieldNNN w, by rw [decode_group0 hA, decodeGroup0, if_neg hcls, if_neg hret]⟩

/-! ## The obligations -/

theorem decodeGroup0_formNNN {nnn : Addr12} (h : sysField nnn = true) :
    decodeGroup0 (formNNN 0x0#4 nnn) = some (.sys nnn) := by
  obtain ⟨hcls, hret⟩ := sysField_iff.1 h
  rw [decodeGroup0, if_neg hcls, if_neg hret, fieldNNN_formNNN]

/-- Settles O1: the decoder reads the primary nibble, then the sub-opcode, and both are what the encoder put
there; only for SYS must the word differ from those of CLS and RET. -/
theorem decodeOfEncodeIsIdentity : Obligations.DecodeOfEncodeIsIdentity := by
  intro i hwf
  cases i
  case cls | ret => rfl
  case sys nnn => exact (decode_group0 (fieldA_formNNN _ _)).trans (decodeGroup0_formNNN hwf)
  case ldVxVy | or | and | xor | addVxVy | sub | shr | subn | shl =>
    simp [encode, decode, decodeGroup8]
  case skp | sknp => simp [encode, decode, decodeGroupE]
  case ldVxDt | ldVxK | ldDtVx | ldStVx | addIVx | ldFVx | ldBVx | ldMemVx | ldVxMem =>
    simp [encode, decode, decodeGroupF]
  all_goals simp [encode, decode]

/-- Settles O8: both formats are the encoder's, so the words decode by O1; the meaning does not mention `N`. -/
theorem ignoredNibbleChangesNothing : Obligations.IgnoredNibbleChangesNothing := by
  intro x y n m s
  exact ⟨decodeOfEncodeIsIdentity (.seVxVy x y n) rfl, decodeOfEncodeIsIdentity (.sneVxVy x y n) rfl,
    rfl, rfl⟩

/-- Settles O5: the decoder run on each word. -/
theorem specWordsDecodeAsListed : Obligations.SpecWordsDecodeAsListed := by
  unfold Obligations.SpecWordsDecodeAsListed
  decide

/-- Settles O2: one inversion of the decoder, group by group, gives the encoder's word and the check. -/
theorem encodeOfDecodeIsIdentity : Obligations.EncodeOfDecodeIsIdentity :=
  fun _ _ h => ⟨(decode_readsAs h).encode_eq, (decode_readsAs h).wf⟩

/-- Settles O3: a word that decodes has its instruction's row, and a refused one has a sub-opcode that no
row of its group has. -/
theorem decoderAgreesWithOpcodeTable : Obligations.DecoderAgreesWithOpcodeTable := by
  intro w
  cases hd : decode w with
  | some i => exact (decode_readsAs hd).row
  | none =>
    obtain ⟨hA, hsub⟩ | ⟨hA, hsub⟩ | ⟨hA, hsub⟩ := decode_eq_none_iff.1 hd
    · exact (tableRow_group8 hA).trans (find?_key_eq_none_iff.2 hsub)
    · exact (tableRow_groupE hA).trans (find?_key_eq_none_iff.2 hsub)
    · exact (tableRow_groupF hA).trans (find?_key_eq_none_iff.2 hsub)

theorem notMem_subopcodes8_iff (n : Nibble) :
    n ∉ subopcodes8 ↔ n.toNat ∈ [0x8, 0x9, 0xA, 0xB, 0xC, 0xD, 0xF] := by
  revert n
  decide

/-- Settles O4: what decodes as SYS and what the decoder refuses, with the fields written as numbers. -/
theorem invalidWordsAreExactlyThese : Obligations.InvalidWordsAreExactlyThese := by
  intro w
  rw [decode_eq_sys_iff, decode_eq_none_iff, notMem_subopcodes8_iff, toNat_fieldN]
  simp only [fieldA_eq_iff, fieldNN_mem_iff]
  exact ⟨Iff.rfl, Iff.rfl⟩

end Sys2Proof

/-! SUPPORT. Jumps, CALL and RET (40_control_flow.md R100 to R103), and the frames that a jump to its own
address runs through (49_frame_driver.md R190, R196). -/

namespace Sys2Proof.Machine

/-! ## A payment and a fault leave the rest alone -/

theorem State.charge_keeps (s : State) (c : Nat) : KeepsBut [.budget] s (s.charge c) := by
  refine ⟨fun p hp => ?_, fun _ => rfl⟩
  cases p <;> simp [Part.same] at hp ⊢

/-- Everything a fault does (60_exceptions.md R210, R211). -/
theorem raise_next (f : Fault) (s : State) :
    ∃ t, raise f s = .next t ∧ t.fault = some f ∧ t.budget = 0 ∧ SameBut [.fault, .budget] s t := by
  refine ⟨_, raise_eq f s, rfl, rfl, fun p hp => ?_⟩
  cases p <;> simp [Part.same, State.reg] at hp ⊢

/-! ## The four instructions -/

theorem decode_jp (nnn : Addr12) : decode (0x1#4 ++ nnn) = some (.jp nnn) :=
  decodeOfEncodeIsIdentity (.jp nnn) rfl

/-- Settles O21: the word is the encoder's, and JP is one write of `pc` and one payment. -/
theorem jumpSetsPc : Obligations.JumpSetsPc := fun nnn s =>
  ⟨decode_jp nnn, _, rfl, toNat_addrOperand nnn, rfl, openCost_pos _ s,
    ((s.setPc_keeps _).trans (State.charge_keeps _ _)).1⟩

/-- Settles O27: the sum of a 12-bit address and a byte does not wrap in 16 bits. -/
theorem indexedJumpAddsRegisterZero : Obligations.IndexedJumpAddsRegisterZero := fun nnn s =>
  ⟨_, rfl, toNat_addrOperand_add_wideByte nnn _, rfl,
    ((s.setPc_keeps _).trans (State.charge_keeps _ _)).1⟩

/-- Settles O22: with room CALL is a push, a write of `pc` and a payment. -/
theorem callPushesReturnAddress : Obligations.CallPushesReturnAddress := fun nnn s hroom =>
  ⟨_, execCall_room hroom, rfl, toNat_addrOperand nnn, rfl,
    (((withStack_keeps s _).trans (State.setPc_keeps _ _)).trans (State.charge_keeps _ _)).1⟩

/-- Settles O23: on a full stack CALL is the fault and nothing else. -/
theorem callOnFullStackRaises : Obligations.CallOnFullStackRaises := by
  intro nnn s hfull
  obtain ⟨t, hraise, ht⟩ := raise_next .stackOverflow s
  exact ⟨t, (execCall_full hfull).trans hraise, ht⟩

/-- Settles O24: on a stack with an entry RET is a pop, a write of `pc` and a payment. -/
theorem returnPopsReturnAddress : Obligations.ReturnPopsReturnAddress := fun s _ _ hs =>
  ⟨_, execRet_append hs, rfl, rfl, rfl,
    (((withStack_keeps s _).trans (State.setPc_keeps _ _)).trans (State.charge_keeps _ _)).1⟩

/-- Settles O25: on the empty stack RET is the fault and nothing else. -/
theorem returnOnEmptyStackRaises : Obligations.ReturnOnEmptyStackRaises := by
  intro s hs
  obtain ⟨t, hraise, ht⟩ := raise_next .stackUnderflow s
  exact ⟨t, (execRet_empty hs).trans hraise, ht⟩

/-- Settles O26: the stack the CALL leaves ends in its return address, so RET by O24 pops that. -/
theorem callThenReturnResumes : Obligations.CallThenReturnResumes := by
  intro nnn s hroom
  obtain ⟨t, hcall, hpushed, -⟩ := callPushesReturnAddress nnn s hroom
  refine ⟨t, hcall, fun t' ht' => ?_⟩
  obtain ⟨u, hret, hpc, hstack, -⟩ := returnPopsReturnAddress t' s.stack s.pc (ht'.trans hpushed)
  exact ⟨u, hret, hpc, hstack⟩

/-! ## The frame driver, one step and one frame at a time -/

/-- Fetch, decode, execute (49_frame_driver.md R193) of a word that lies in memory and decodes. -/
theorem instructionStep_of_decode {s : State} {i : Instr} (hpc : s.pc.toNat ≤ 4094)
    (hd : decode (s.mem.read s.pc.toNat ++ s.mem.read (s.pc.toNat + 1)) = some i) :
    instructionStep s = exec i (s.setPc (s.pc + 2#16)) := by
  simp only [instructionStep, fetchDecode, fetch_inside hpc, hd]

theorem frameLoop_succ {s u : State} (n : Nat) (h : step s = .next u) :
    frameLoop (n + 1) s = if u.budget ≤ 0 then .next u else frameLoop n u := by
  simp only [frameLoop, h]

theorem runFrames_succ {s u : State} (n : Nat) (h : frame s = .next u) :
    runFrames (n + 1) s = runFrames n u := by
  simp only [runFrames, h]

/-! ## A jump to its own address -/

/-- The machine has not faulted and its next word is a JP to that word's own address. -/
structure SelfJump (s : State) : Prop where
  running : s.fault = none
  pc_le : s.pc.toNat ≤ 4094
  word : s.mem.read s.pc.toNat ++ s.mem.read (s.pc.toNat + 1) = 0x1#4 ++ s.pc.extractLsb' 0 12

/-- What `n` frames of waiting do: each ticks both timers, and beside them only the keys and the bookkeeping
of the frame change. -/
structure IdleFrames (n : Nat) (s t : State) : Prop where
  frames : t.frames = s.frames + n
  dt : t.dt.toNat = s.dt.toNat - n
  st : t.st.toNat = s.st.toNat - n
  same : SameBut [.dt, .st, .keys, .budget, .frames] s t

theorem IdleFrames.refl (s : State) : IdleFrames 0 s s where
  frames := rfl
  dt := rfl
  st := rfl
  same := fun p _ => by cases p <;> simp [Part.same]

theorem IdleFrames.trans {m n : Nat} {s t u : State} (h : IdleFrames m s t) (h' : IdleFrames n t u) :
    IdleFrames (m + n) s u where
  frames := by rw [h'.frames, h.frames, Nat.add_assoc]
  dt := by rw [h'.dt, h.dt, Nat.sub_sub]
  st := by rw [h'.st, h.st, Nat.sub_sub]
  same := fun p hp => Part.same_trans (h.same p hp) (h'.same p hp)

/-- A frame start, whatever is left of the budget when the frame ends. -/
theorem idleFrames_enterFrame {s : State} (h : s.budget ≤ 0) (b : Int) :
    IdleFrames 1 s { s.enterFrame with budget := b } := by
  rw [State.enterFrame_due h]
  refine ⟨rfl, toNat_tick s.dt, toNat_tick s.st, fun p hp => ?_⟩
  cases p <;> simp [Part.same, State.reg] at hp ⊢

/-- An address of memory is its own low 12 bits. -/
theorem addrOperand_extractLsb'_of_le {v : Word} (h : v.toNat ≤ 4094) :
    addrOperand (v.extractLsb' 0 12) = v := by
  apply BitVec.eq_of_toNat_eq
  rw [toNat_addrOperand, BitVec.extractLsb'_toNat, Nat.shiftRight_zero, Nat.mod_eq_of_lt (by omega)]

/-- Waiting writes none of the parts that make the next word a jump to itself. -/
theorem SelfJump.of_idleFrames {n : Nat} {s t : State} (hs : SelfJump s) (h : IdleFrames n s t) :
    SelfJump t := by
  have hmem : ∀ a, t.mem.read a = s.mem.read a := h.same .mem (by simp)
  have hpc : t.pc = s.pc := h.same .pc (by simp)
  have hfault : t.fault = s.fault := h.same .fault (by simp)
  exact ⟨hfault.trans hs.running, hpc ▸ hs.pc_le, by rw [hmem, hmem, hpc, hs.word]⟩

/-- After the start of a frame when one is due, a step pays and leaves everything as it was. -/
theorem SelfJump.step_eq {s : State} (h : SelfJump s) :
    ∃ c, 1 ≤ c ∧ step s = .next (s.enterFrame.charge c) := by
  have hd := (congrArg decode h.word).trans (decode_jp _)
  have hstep := instructionStep_of_decode (s := s.enterFrame) h.pc_le hd
  rw [exec, execJp, addrOperand_extractLsb'_of_le h.pc_le] at hstep
  exact ⟨_, openCost_pos _ _, (step_running h.running).trans hstep⟩

/-- Each step pays at least 1, so as many steps as there is budget end the frame. -/
theorem SelfJump.frameLoop_eq {n : Nat} {s : State} (h : SelfJump s) (hn : s.enterFrame.budget ≤ n) :
    ∃ b ≤ 0, frameLoop n s = .next { s.enterFrame with budget := b } := by
  induction n generalizing s with
  | zero => exact absurd s.enterFrame_budget_pos (Int.not_lt.2 hn)
  | succ n ih =>
    obtain ⟨c, hc, hstep⟩ := h.step_eq
    rw [frameLoop_succ n hstep]
    by_cases hover : (s.enterFrame.charge c).budget ≤ 0
    · exact ⟨_, hover, if_pos hover⟩
    · have hmid : (s.enterFrame.charge c).enterFrame = s.enterFrame.charge c :=
        State.enterFrame_notDue (Int.not_le.1 hover)
      have hleft : (s.enterFrame.charge c).budget ≤ n := by
        rw [State.charge_budget]
        omega
      obtain ⟨b, hb, hloop⟩ := ih (s := s.enterFrame.charge c) ⟨h.running, h.pc_le, h.word⟩
        (by rwa [hmid])
      refine ⟨b, hb, (if_neg hover).trans (hloop.trans ?_)⟩
      rw [hmid]
      rfl

theorem SelfJump.frame_idles {s : State} (h : SelfJump s) (hs : s.budget ≤ 0) :
    ∃ t, frame s = .next t ∧ t.budget ≤ 0 ∧ IdleFrames 1 s t := by
  have hwhole : s.enterFrame.budget ≤ frameBudget := by rw [State.enterFrame_due hs]
  obtain ⟨b, hb, hloop⟩ := h.frameLoop_eq hwhole
  exact ⟨_, hloop, hb, idleFrames_enterFrame hs b⟩

theorem SelfJump.runFrames_idles {s : State} (h : SelfJump s) (hs : s.budget ≤ 0) (n : Nat) :
    ∃ t, runFrames n s = .next t ∧ IdleFrames n s t := by
  induction n generalizing s with
  | zero => exact ⟨s, rfl, .refl s⟩
  | succ n ih =>
    obtain ⟨u, hframe, hu, hidle⟩ := h.frame_idles hs
    obtain ⟨t, hrun, hrest⟩ := ih (h.of_idleFrames hidle) hu
    exact ⟨t, (runFrames_succ n hframe).trans hrun, Nat.add_comm 1 n ▸ hidle.trans hrest⟩

/-- Settles O18, by induction on the frames and within a frame on its steps: a frame of a jump to its own
address is its start and payments until the budget is used up, and leaves such a state again. -/
theorem selfJumpRunsForever : Obligations.SelfJumpRunsForever := by
  intro n s hfault hbudget hpc hword
  obtain ⟨t, hrun, hidle⟩ := SelfJump.runFrames_idles ⟨hfault, hpc, hword⟩ hbudget n
  have hpc : t.pc = s.pc := hidle.same .pc (by simp)
  have hfault' : t.fault = s.fault := hidle.same .fault (by simp)
  exact ⟨t, hrun, hfault'.trans hfault, hpc, hidle.frames, hidle.dt, hidle.st, hidle.same⟩

end Sys2Proof.Machine

/-! SUPPORT. The conditional skips (41_conditional_skip.md R110 to R115). -/

namespace Sys2Proof.Machine

/-- Everything a skip does, for a cost that depends on whether it is taken. `P` and `Q` say in the caller's
words that it is taken and that it is not. -/
theorem skipIf_next {P Q : Prop} {taken : Bool} (cost : Bool → Nat) (s : State)
    (hP : P → taken = true) (hQ : Q → taken = false) :
    ∃ t, skipIf taken (cost taken) s = .next t ∧
      (P → t.pc = s.pc + 2#16 ∧ t.budget = s.budget - cost true) ∧
      (Q → t.pc = s.pc ∧ t.budget = s.budget - cost false) ∧ SameBut [.pc, .budget] s t := by
  refine ⟨_, rfl, fun h => ?_, fun h => ?_, ((s.setPc_keeps _).trans (State.charge_keeps _ _)).1⟩
  · obtain rfl := hP h
    exact ⟨rfl, rfl⟩
  · obtain rfl := hQ h
    exact ⟨rfl, rfl⟩

/-- A key skip with a key number is taken when the key is held as wanted. -/
theorem keySkip_next {P Q : Prop} {x : RegIdx} {s : State} (held : Bool) (hkey : (s.reg x).toNat ≤ 15)
    (hP : P → s.keyHeld (s.reg x).toNat = held) (hQ : Q → s.keyHeld (s.reg x).toNat ≠ held) :
    ∃ t, keySkip x held s = .next t ∧
      (P → t.pc = s.pc + 2#16 ∧ t.budget = s.budget - keySkipCost true) ∧
      (Q → t.pc = s.pc ∧ t.budget = s.budget - keySkipCost false) ∧ SameBut [.pc, .budget] s t := by
  rw [keySkip_key held hkey]
  exact skipIf_next keySkipCost s (fun h => beq_iff_eq.2 (hP h)) fun h => beq_eq_false_iff_ne.2 (hQ h)

/-- Settles O28: both are one skip, SE on equality with the immediate byte and SNE on its negation. -/
theorem immediateSkips : Obligations.ImmediateSkips := fun _ _ s =>
  ⟨skipIf_next immediateSkipCost s beq_iff_eq.2 beq_eq_false_iff_ne.2,
    skipIf_next immediateSkipCost s bne_iff_ne.2 bne_eq_false_iff_eq.2⟩

/-- Settles O29: both are one skip, SE on equality of the registers and SNE on its negation; neither reads
the ignored nibble. -/
theorem registerSkips : Obligations.RegisterSkips := fun _ _ _ s =>
  ⟨skipIf_next registerSkipCost s beq_iff_eq.2 beq_eq_false_iff_ne.2,
    skipIf_next registerSkipCost s bne_iff_ne.2 bne_eq_false_iff_eq.2⟩

/-- Settles O30: with a key number SKP and SKNP are the key skips that want the key held and not held. -/
theorem keySkips : Obligations.KeySkips := fun _ _ hkey =>
  ⟨keySkip_next true hkey id ne_true_of_eq_false, keySkip_next false hkey id ne_false_of_eq_true⟩

/-- Settles O31: without a key number both key skips are the fault and nothing else. -/
theorem keySkipPastKeysRaises : Obligations.KeySkipPastKeysRaises := by
  intro x s hkey
  obtain ⟨t, hraise, ht⟩ := raise_next (.keyIndexOutOfRange (s.reg x)) s
  exact ⟨⟨t, (keySkip_noKey true hkey).trans hraise, ht⟩,
    ⟨t, (keySkip_noKey false hkey).trans hraise, ht⟩⟩

end Sys2Proof.Machine

/-! SUPPORT. Immediate load and add (42_immediate.md R120, R121), by everything a write of one result does. -/

namespace Sys2Proof.Machine

/-- Everything a write of one result does: the register holds it, the open cost is paid, and every other
register and every other part of the state stays. -/
theorem writeResult_next (i : Instr) (x : RegIdx) (v : Byte) (s : State) :
    ∃ t, writeResult i x v s = .next t ∧ t.reg x = v ∧ t.budget = s.budget - openCost i s ∧
      SameRegsBut [x] s t ∧ SameBut [.regs, .budget] s t :=
  ⟨_, rfl, s.reg_setReg_same x v, rfl, fun _ hk => s.reg_setReg_ne v (List.ne_of_not_mem_cons hk),
    ((s.setReg_keeps x v).trans (State.charge_keeps _ _)).1⟩

/-- Settles O32: the word is the encoder's, and LD Vx, nn is a write of the immediate byte. -/
theorem loadImmediate : Obligations.LoadImmediate := fun x nn s =>
  ⟨decodeOfEncodeIsIdentity (.ldVxNn x nn) rfl, writeResult_next (.ldVxNn x nn) x nn s⟩

/-- Settles O33: the word is the encoder's, and ADD Vx, nn is a write of the sum of two bytes, which wraps
at 256. -/
theorem addImmediateWrapsWithoutFlag : Obligations.AddImmediateWrapsWithoutFlag := by
  intro x nn s
  refine ⟨decodeOfEncodeIsIdentity (.addVxNn x nn) rfl, ?_⟩
  obtain ⟨t, hexec, hreg, hrest⟩ := writeResult_next (.addVxNn x nn) x (s.reg x + nn) s
  exact ⟨t, hexec, hreg ▸ BitVec.toNat_add _ _, hrest⟩

end Sys2Proof.Machine

/-! SUPPORT. The register-register group (43_alu.md R130 to R139): a write of one result, or of a result and
then a flag, with the result and the flag as numbers. -/

namespace Sys2Proof.Machine

/-! ## LD, OR, AND, XOR (R130 to R133) -/

/-- `writeResult_next` with the result said bit by bit. -/
theorem writeResult_next_bits (i : Instr) (x : RegIdx) (v : Byte) (s : State) {bit : Nat → Bool}
    (hv : ∀ k, v.getLsbD k = bit k) :
    ∃ t, writeResult i x v s = .next t ∧ (∀ k < 8, (t.reg x).getLsbD k = bit k) ∧
      t.budget = s.budget - openCost i s ∧ SameRegsBut [x] s t ∧ SameBut [.regs, .budget] s t := by
  obtain ⟨t, hexec, hreg, hrest⟩ := writeResult_next i x v s
  exact ⟨t, hexec, fun k _ => hreg ▸ hv k, hrest⟩

/-- Settles O34: each is a write of one result, and a bit of an OR, AND or XOR is that operation on the bits
of the operands. -/
theorem copyAndBitwiseOperations : Obligations.CopyAndBitwiseOperations := fun x y s =>
  ⟨writeResult_next (.ldVxVy x y) x (s.reg y) s,
    writeResult_next_bits (.or x y) x (s.reg x ||| s.reg y) s fun _ => BitVec.getLsbD_or,
    writeResult_next_bits (.and x y) x (s.reg x &&& s.reg y) s fun _ => BitVec.getLsbD_and,
    writeResult_next_bits (.xor x y) x (s.reg x ^^^ s.reg y) s fun _ => BitVec.getLsbD_xor⟩

/-! ## The operations with a flag (R134 to R139) -/

/-- Everything a write of a result and then a flag does: register `x` holds the result unless it is the flag
register, which holds the flag (D9); the open cost is paid, and every other register and every other part of
the state stays. -/
theorem writeResultFlag_next (i : Instr) (x : RegIdx) (s : State) {v flag flag' : Byte} {n : Nat}
    (hv : v.toNat = n) (hflag : flag = flag') :
    ∃ t, writeResultFlag i x v flag s = .next t ∧ (x ≠ 15#4 → (t.reg x).toNat = n) ∧
      t.reg 15#4 = flag' ∧ t.budget = s.budget - openCost i s ∧
      SameRegsBut [x, 15#4] s t ∧ SameBut [.regs, .budget] s t := by
  refine ⟨_, rfl, fun hx => ?_, ?_, rfl, fun k hk => ?_,
    ((withRegs_keeps s _).trans (State.charge_keeps _ _)).1⟩
  · have hx15 : x ≠ flagReg := hx
    rw [State.reg_charge, State.reg_setResultFlag, if_neg hx15, if_pos rfl, hv]
  · exact (s.reg_setResultFlag flagReg x v flag).trans ((if_pos rfl).trans hflag)
  · exact writeResultFlag_reg_ne rfl (List.ne_of_not_mem_cons hk)
      (List.ne_of_not_mem_cons (List.not_mem_of_not_mem_cons hk))

theorem flagByte_decide (p : Prop) [Decidable p] : flagByte (decide p) = if p then 1#8 else 0#8 := by
  simp only [flagByte, decide_eq_true_eq]

theorem toNat_flagByte (b : Bool) : (flagByte b).toNat = b.toNat := by
  cases b <;> rfl

/-- Settles O35: the sum of two bytes wraps at 256, and the carry says whether it did. -/
theorem addSetsCarry : Obligations.AddSetsCarry := fun x y s =>
  writeResultFlag_next (.addVxVy x y) x s (BitVec.toNat_add _ _) (flagByte_decide _)

theorem toNat_sub_byte (a b : Byte) : (a - b).toNat = (256 + a.toNat - b.toNat) % 256 := by
  have := b.isLt
  rw [BitVec.toNat_sub]
  omega

/-- Settles O36: SUB and SUBN are the same difference with the operands exchanged, flagged by whether it
needed no borrow. -/
theorem subtractSetsNoBorrow : Obligations.SubtractSetsNoBorrow := fun x y s =>
  ⟨writeResultFlag_next (.sub x y) x s (toNat_sub_byte _ _) (flagByte_decide _),
    writeResultFlag_next (.subn x y) x s (toNat_sub_byte _ _) (flagByte_decide _)⟩

theorem toNat_ushiftRight_one (v : Byte) : (v >>> 1).toNat = v.toNat / 2 := by
  rw [BitVec.toNat_ushiftRight, Nat.shiftRight_eq_div_pow, pow_one]

theorem toNat_shiftLeft_one (v : Byte) : (v <<< 1).toNat = 2 * v.toNat % 256 := by
  rw [BitVec.toNat_shiftLeft, Nat.shiftLeft_eq, pow_one, Nat.mul_comm]

theorem toNat_lowBitFlag (v : Byte) : (lowBitFlag v).toNat = v.toNat % 2 := by
  rw [lowBitFlag, toNat_flagByte, ← BitVec.testBit_toNat, Nat.toNat_testBit, pow_zero, Nat.div_one]

theorem toNat_highBitFlag (v : Byte) : (highBitFlag v).toNat = v.toNat / 128 := by
  have := v.isLt
  rw [highBitFlag, toNat_flagByte, ← BitVec.testBit_toNat, Nat.toNat_testBit]
  omega

/-- Settles O37: the operand is the one `SHIFT_SOURCE` names, a shift by one halves or doubles it, and the
flag is its lowest or highest bit as a number. -/
theorem shiftsByOneSetShiftedOutBit : Obligations.ShiftsByOneSetShiftedOutBit := by
  intro x y s src hsrc
  obtain rfl : src = s.shiftOperand x y := hsrc
  constructor
  · obtain ⟨t, hexec, hreg, hflag, hrest⟩ :=
      writeResultFlag_next (.shr x y) x s (toNat_ushiftRight_one (s.shiftOperand x y)) rfl
    exact ⟨t, hexec, hreg, hflag ▸ toNat_lowBitFlag _, hrest⟩
  · obtain ⟨t, hexec, hreg, hflag, hrest⟩ :=
      writeResultFlag_next (.shl x y) x s (toNat_shiftLeft_one (s.shiftOperand x y)) rfl
    exact ⟨t, hexec, hreg, hflag ▸ toNat_highBitFlag _, hrest⟩

end Sys2Proof.Machine

/-! SUPPORT. The index register and the memory transfers (44_index_memory.md R140 to R145): a write of `I`,
a store at `I`, a load from `I`. -/

namespace Sys2Proof.Machine

/-! ## Writes of the index register (R140 to R142) -/

/-- Everything a write of `I` does: `I` holds the value, the cost is paid, and every other part of the state
stays. -/
theorem setI_next (s : State) (c : Nat) {v : Word} {n : Nat} (hv : v.toNat = n) :
    ∃ t, (.next ((s.setI v).charge c) : Result) = .next t ∧ t.i.toNat = n ∧ t.budget = s.budget - c ∧
      SameBut [.i, .budget] s t :=
  ⟨_, rfl, hv, rfl, ((s.setI_keeps v).trans (State.charge_keeps _ _)).1⟩

theorem toNat_add_wideByte (w : Word) (v : Byte) :
    (w + wideByte v).toNat = (w.toNat + v.toNat) % 65536 := by
  rw [BitVec.toNat_add, toNat_wideByte]

/-- The address of a glyph does not wrap: it is at most 255 × 5. -/
theorem toNat_glyphAddr (v : Byte) : (glyphAddr v).toNat = v.toNat * 5 := by
  have := v.isLt
  rw [glyphAddr, glyphSize, BitVec.toNat_ofNat]
  omega

/-- Settles O38: each of the three is one write of `I`, whose value as a number is its lemma above. -/
theorem indexRegisterWrites : Obligations.IndexRegisterWrites := fun nnn x s =>
  ⟨setI_next s _ (toNat_addrOperand nnn), setI_next s _ (toNat_add_wideByte s.i (s.reg x)),
    setI_next s _ (toNat_glyphAddr (s.reg x))⟩

/-! ## Stores at the index register (R143, R144) -/

/-- Everything a store at `I` that lies in memory does: the bytes read back, the open cost is paid, and every
other byte of memory and every other part of the state stays. -/
theorem storeAtIndex_next {i : Instr} {bs : List Byte} {s : State} (hm : s.mem.wf = true)
    (hin : s.i.toNat + bs.length ≤ memSize) :
    ∃ t, storeAtIndex i bs s = .next t ∧
      (∀ j, (hj : j < bs.length) → t.mem.read (s.i.toNat + j) = bs[j]) ∧
      t.budget = s.budget - openCost i s ∧ SameMemBut s.i.toNat bs.length s t ∧
      SameBut [.mem, .budget] s t :=
  ⟨_, storeAtIndex_inside hin, fun _ hj => Memory.read_load_inside hm bs hin hj, rfl,
    fun _ hb => Memory.read_load_outside s.mem bs hb,
    ((withMem_keeps s _).trans (State.charge_keeps _ (openCost i s))).1⟩

/-- A number below 256 is a byte unchanged. -/
theorem toNat_ofNat_byte {n : Nat} (h : n < 256) : (BitVec.ofNat 8 n).toNat = n :=
  (BitVec.toNat_ofNat n 8).trans (Nat.mod_eq_of_lt h)

/-- Settles O39: LD B is a store of three bytes at `I`, and each decimal digit of a byte fits in a byte. -/
theorem decimalDigitsStored : Obligations.DecimalDigitsStored := by
  intro x s hm hin
  have hv := (s.reg x).isLt
  obtain ⟨t, hexec, hread, hrest⟩ := storeAtIndex_next (i := .ldBVx x) (bs := decimalDigits (s.reg x)) hm
    (by rw [length_decimalDigits, memSize]; omega)
  have hdigit (j : Nat) (hj : j < 3) : t.mem.read (s.i.toNat + j) = (decimalDigits (s.reg x))[j] := hread j hj
  refine ⟨t, hexec, ?_, ?_, ?_, hrest⟩
  · exact hdigit 0 (by decide) ▸ toNat_ofNat_byte (by omega)
  · exact hdigit 1 (by decide) ▸ toNat_ofNat_byte (by omega)
  · exact hdigit 2 (by decide) ▸ toNat_ofNat_byte (by omega)

/-- Settles O40: LD [I], Vx is a store of `X + 1` bytes at `I`, of which byte `k` is register `k`. -/
theorem blockStoreCopiesRegisters : Obligations.BlockStoreCopiesRegisters := by
  intro x s hm hin
  have hlen := s.length_regsUpTo x
  obtain ⟨t, hexec, hread, hbudget, hmem, hrest⟩ :=
    storeAtIndex_next (i := .ldMemVx x) (bs := s.regsUpTo x) hm (by rw [hlen, memSize]; omega)
  refine ⟨t, hexec, fun k hk => ?_, hbudget, hlen ▸ hmem, hrest⟩
  have hk' : k.toNat < (s.regsUpTo x).length := by omega
  exact (hread k.toNat hk').trans (s.getElem_regsUpTo x k hk')

/-! ## The load from the index register (R145) -/

/-- A read of `n` bytes that lie in memory. -/
theorem State.readBytes_inside (s : State) {a n : Nat} (h : a + n ≤ memSize) :
    s.readBytes a n = .ok ((List.range' a n).map s.mem.read) := by
  rw [State.readBytes_eq, if_pos (.inr h)]

/-- Register `k` after the bytes of memory from address `a` on are put in the registers below `n`. -/
theorem fillRegs_map_range' (regs : Vector Byte 16) (m : Memory) (a n : Nat) (k : RegIdx) :
    (fillRegs regs 0 ((List.range' a n).map m.read))[k.toNat] =
      if k.toNat < n then m.read (a + k.toNat) else regs[k.toNat] := by
  rw [fillRegs_getElem]
  simp

/-- Settles O41: the block read gives the `X + 1` bytes at `I`, and filling the registers with them writes
those up to `X` and no other. -/
theorem blockLoadFillsRegisters : Obligations.BlockLoadFillsRegisters := by
  intro x s hin
  have hbytes := s.readBytes_inside (a := s.indexAddr 0) (n := x.toNat + 1)
    (by rw [State.indexAddr, memSize]; omega)
  refine ⟨_, execLdVxMem_loads hbytes, fun k => ?_, rfl,
    ((withRegs_keeps s _).trans (State.charge_keeps _ _)).1⟩
  exact (fillRegs_map_range' s.regs s.mem s.i.toNat (x.toNat + 1) k).trans
    (if_congr Nat.lt_succ_iff rfl rfl)

end Sys2Proof.Machine

/-! SUPPORT. The random byte (45_random.md R150): everything RND does, and what masking does to a byte. -/

namespace Sys2Proof.Machine

/-- Everything RND does: the register holds the masked byte of this draw, one byte is drawn, the open cost
is paid, and every other register and every other part of the state stays. -/
theorem execRnd_next (x : RegIdx) (nn : Byte) (s : State) :
    ∃ t, execRnd x nn s = .next t ∧ t.reg x = Config.rand8 s.draws &&& nn ∧ t.draws = s.draws + 1 ∧
      t.budget = s.budget - openCost (.rnd x nn) s ∧
      SameRegsBut [x] s t ∧ SameBut [.regs, .draws, .budget] s t :=
  ⟨_, rfl, State.reg_setReg_same _ _ _, rfl, rfl,
    fun _ hk => execRnd_reg_ne rfl (List.ne_of_not_mem_cons hk),
    (((s.drawByte_keeps.trans (State.setReg_keeps _ _ _)).trans (State.charge_keeps _ _)).mono
      (by decide)).1⟩

/-- No bit outside the mask survives it. -/
theorem and_mask_and_not_mask (v mask : Byte) : v &&& mask &&& ~~~mask = 0#8 := by
  rw [BitVec.and_assoc, BitVec.and_not_self]
  exact BitVec.and_zero

theorem toNat_and_mask_le (v mask : Byte) : (v &&& mask).toNat ≤ mask.toNat := by
  rw [BitVec.toNat_and]
  exact Nat.and_le_right

/-- Settles O43: RND writes a masked byte, which has no bit outside its mask and is at most its mask, whatever
byte was drawn. -/
theorem randomByteIsMasked : Obligations.RandomByteIsMasked := by
  intro x nn s
  obtain ⟨t, hexec, hreg, hrest⟩ := execRnd_next x nn s
  exact ⟨t, hexec, hreg, hreg ▸ and_mask_and_not_mask _ nn, hreg ▸ toNat_and_mask_le _ nn, hrest⟩

end Sys2Proof.Machine

/-! SUPPORT. The display (46_display.md R160 to R162): CLS, and DRW pixel by pixel. A sprite has fewer than 32
rows, so no two of them fall on one pixel row, and each pixel meets at most one sprite bit. -/

namespace Sys2Proof.Machine

/-! ## CLS (R160) -/

theorem fbByte_zero {j : Nat} (hj : j < 256) : fbByte (Vector.replicate 256 0#8) j = 0#8 := by
  simp [fbByte, Vector.getD, hj]

/-- Settles O44: the word is the encoder's, and CLS is one write of the framebuffer and one payment. -/
theorem clearScreenZeroesFramebuffer : Obligations.ClearScreenZeroesFramebuffer := fun s =>
  ⟨decodeOfEncodeIsIdentity .cls rfl, _, rfl, fun _ => fbByte_zero, rfl,
    ((withFb_keeps s _).trans (State.charge_keeps _ _)).1⟩

/-! ## Where a sprite's bits fall (R161) -/

theorem rowBit_at (vx b : Byte) {j : Nat} (hj : j < 8) :
    rowBit vx b ((vx.toNat + j) % 64) = b.getLsbD (7 - j) := by
  have hoff : ((vx.toNat + j) % 64 + 64 - vx.toNat % 64) % 64 = j := by omega
  rw [rowBit, hoff, decide_eq_true hj, Bool.true_and]

/-- A column under a bit of the sprite row is one of the eight from `vx` on. -/
theorem exists_column_of_rowBit {vx b : Byte} {c : Nat} (hc : c < 64) (h : rowBit vx b c = true) :
    ∃ j < 8, c = (vx.toNat + j) % 64 := by
  rw [rowBit, Bool.and_eq_true, decide_eq_true_eq] at h
  obtain ⟨hoff, -⟩ := h
  exact ⟨_, hoff, by omega⟩

/-- A set bit of a sprite row on a column with `P`, said by column and said by bit. -/
theorem exists_rowBit_iff (vx b : Byte) (P : Nat → Prop) :
    (∃ c < 64, P c ∧ rowBit vx b c = true) ↔
      ∃ j < 8, b.getLsbD (7 - j) = true ∧ P ((vx.toNat + j) % 64) := by
  constructor
  · rintro ⟨c, hc, hP, hbit⟩
    obtain ⟨j, hj, rfl⟩ := exists_column_of_rowBit hc hbit
    exact ⟨j, hj, rowBit_at vx b hj ▸ hbit, hP⟩
  · rintro ⟨j, hj, hbit, hP⟩
    exact ⟨_, Nat.mod_lt _ (by decide), hP, (rowBit_at vx b hj).trans hbit⟩

/-- How far pixel row `r` is below `vy`, modulo 32: the number of the sprite row that falls on it. -/
def rowOffset (vy : Byte) (r : Nat) : Nat := (r + 32 - vy.toNat % 32) % 32

theorem rowOffset_drawRow (vy : Byte) {row : Nat} (h : row < 32) : rowOffset vy (drawRow vy row) = row := by
  unfold rowOffset drawRow
  omega

theorem drawRow_rowOffset (vy : Byte) {r : Nat} (h : r < 32) : drawRow vy (rowOffset vy r) = r := by
  unfold rowOffset drawRow
  omega

/-- The sprite bit on pixel (`c`, `r`) when the `n` sprite rows are the bytes `rows 0`, `rows 1`, …. -/
def spriteBit (vx vy : Byte) (rows : Nat → Byte) (n c r : Nat) : Bool :=
  decide (rowOffset vy r < n) && rowBit vx (rows (rowOffset vy r)) c

theorem spriteBit_at (vx vy : Byte) (rows : Nat → Byte) {n row j : Nat} (hn : n ≤ 32) (hrow : row < n)
    (hj : j < 8) :
    spriteBit vx vy rows n ((vx.toNat + j) % 64) (drawRow vy row) = (rows row).getLsbD (7 - j) := by
  rw [spriteBit, rowOffset_drawRow vy (hrow.trans_le hn), decide_eq_true hrow, Bool.true_and,
    rowBit_at vx _ hj]

theorem spriteBit_uncovered {vx vy : Byte} (rows : Nat → Byte) {n c r : Nat} (hc : c < 64) (hr : r < 32)
    (h : ∀ row < n, ∀ j < 8, ¬ (c = (vx.toNat + j) % 64 ∧ r = drawRow vy row)) :
    spriteBit vx vy rows n c r = false := by
  by_contra hbit
  rw [Bool.not_eq_false, spriteBit, Bool.and_eq_true, decide_eq_true_eq] at hbit
  obtain ⟨hrow, hcolBit⟩ := hbit
  obtain ⟨j, hj, hcol⟩ := exists_column_of_rowBit hc hcolBit
  exact h _ hrow j hj ⟨hcol, (drawRow_rowOffset vy hr).symm⟩

/-- One more sprite row adds the bits on its own pixel row. -/
theorem spriteBit_succ (vx vy : Byte) (rows : Nat → Byte) {n r : Nat} (hn : n < 32) (hr : r < 32) (c : Nat) :
    spriteBit vx vy rows (n + 1) c r =
      xor (spriteBit vx vy rows n c r) (decide (r = drawRow vy n) && rowBit vx (rows n) c) := by
  unfold spriteBit
  by_cases h : r = drawRow vy n
  · subst h
    simp [rowOffset_drawRow vy hn]
  · have hne : rowOffset vy r ≠ n := fun he => h (he ▸ (drawRow_rowOffset vy hr).symm)
    have hlt : rowOffset vy r < n + 1 ↔ rowOffset vy r < n := by omega
    simp [h, hlt]

/-! ## The rows of a sprite drawn one after the other (R161) -/

theorem drawSprite_append (vx vy b : Byte) (bs : List Byte) (row : Nat) (fb : Framebuffer) (hit : Bool) :
    drawSprite vx vy row (bs ++ [b]) fb hit =
      ((drawSpriteRow vx vy (row + bs.length) b (drawSprite vx vy row bs fb hit).1).1,
        (drawSprite vx vy row bs fb hit).2 ||
          (drawSpriteRow vx vy (row + bs.length) b (drawSprite vx vy row bs fb hit).1).2) := by
  induction bs generalizing row fb hit with
  | nil => rfl
  | cons b' bs ih =>
    simp only [List.cons_append, drawSprite, ih, List.length_cons, Nat.add_assoc, Nat.add_comm 1]

/-- The first `n` sprite rows drawn: the framebuffer after, and whether a set pixel was cleared. -/
def drawRows (vx vy : Byte) (rows : Nat → Byte) (n : Nat) (fb : Framebuffer) : Framebuffer × Bool :=
  drawSprite vx vy 0 ((List.range n).map rows) fb false

section Rows
variable (vx vy : Byte) (rows : Nat → Byte) (fb : Framebuffer)

theorem drawRows_succ (n : Nat) :
    drawRows vx vy rows (n + 1) fb =
      ((drawSpriteRow vx vy n (rows n) (drawRows vx vy rows n fb).1).1,
        (drawRows vx vy rows n fb).2 || (drawSpriteRow vx vy n (rows n) (drawRows vx vy rows n fb).1).2) := by
  rw [drawRows, List.range_succ, List.map_append, List.map_singleton, drawSprite_append, List.length_map,
    List.length_range, Nat.zero_add, ← drawRows]

/-- Every pixel flips where a sprite bit falls on it. -/
theorem pixel_drawRows {n c r : Nat} (hn : n ≤ 32) (hc : c < 64) (hr : r < 32) :
    pixel (drawRows vx vy rows n fb).1 c r = xor (pixel fb c r) (spriteBit vx vy rows n c r) := by
  induction n with
  | zero => simp [drawRows, drawSprite, spriteBit]
  | succ n ih =>
    rw [drawRows_succ, pixel_drawSpriteRow _ _ _ _ _ hc, ih (Nat.le_of_succ_le hn),
      spriteBit_succ vx vy rows hn hr, Bool.xor_assoc]

/-- A sprite row lands on pixels that the rows before it left alone. -/
theorem pixel_drawRows_drawRow {n c : Nat} (hn : n < 32) (hc : c < 64) :
    pixel (drawRows vx vy rows n fb).1 c (drawRow vy n) = pixel fb c (drawRow vy n) := by
  rw [pixel_drawRows vx vy rows fb hn.le hc (drawRow_lt vy n), spriteBit, rowOffset_drawRow vy hn,
    decide_eq_false (Nat.lt_irrefl n), Bool.false_and, Bool.xor_false]

/-- A collision is a set sprite bit on a pixel that was set before the first row was drawn. -/
theorem drawRows_hit {n : Nat} (hn : n ≤ 32) :
    (drawRows vx vy rows n fb).2 = true ↔
      ∃ row < n, ∃ j < 8, (rows row).getLsbD (7 - j) = true ∧
        pixel fb ((vx.toNat + j) % 64) (drawRow vy row) = true := by
  induction n with
  | zero => simp [drawRows, drawSprite]
  | succ n ih =>
    have hrow : (drawSpriteRow vx vy n (rows n) (drawRows vx vy rows n fb).1).2 = true ↔
        ∃ j < 8, (rows n).getLsbD (7 - j) = true ∧ pixel fb ((vx.toNat + j) % 64) (drawRow vy n) = true := by
      rw [drawSpriteRow_hit, exists_rowBit_iff vx (rows n) fun c => pixel _ c (drawRow vy n) = true]
      simp only [pixel_drawRows_drawRow vx vy rows fb hn (Nat.mod_lt _ (by decide : 64 > 0))]
    rw [drawRows_succ, Bool.or_eq_true, Nat.exists_lt_succ_right, ih (Nat.le_of_succ_le hn), hrow]

end Rows

/-! ## DRW (R161, R162) -/

theorem flagByte_eq_one_iff (b : Bool) : flagByte b = 1#8 ↔ b = true := by
  cases b <;> decide

/-- The byte of memory that is sprite row `row` at `I`. -/
def State.spriteRow (s : State) (row : Nat) : Byte := s.mem.read (s.i.toNat + row)

theorem State.sprite_inside {s : State} {n : Nibble} (h : n.toNat = 0 ∨ s.i.toNat + n.toNat ≤ 4096) :
    s.sprite n = .ok ((List.range n.toNat).map s.spriteRow) := by
  have hread := (s.readBytes_eq s.i.toNat n.toNat).trans (if_pos h)
  rw [List.range'_eq_map_range, List.map_map] at hread
  exact hread

/-- Everything DRW of a sprite that lies in memory does: its rows are drawn, the flag register holds the
collision, the open cost is paid, and every other register and every other part of the state stays. -/
theorem execDrw_next (x y : RegIdx) {n : Nibble} {s : State} (h : n.toNat = 0 ∨ s.i.toNat + n.toNat ≤ 4096) :
    ∃ t, execDrw x y n s = .next t ∧
      t.fb = (drawRows (s.reg x) (s.reg y) s.spriteRow n.toNat s.fb).1 ∧
      t.reg flagReg = flagByte (drawRows (s.reg x) (s.reg y) s.spriteRow n.toNat s.fb).2 ∧
      t.budget = s.budget - openCost (.drw x y n) s ∧
      SameRegsBut [flagReg] s t ∧ SameBut [.fb, .regs, .budget] s t := by
  have hdraw := execDrw_draws (x := x) (y := y) (State.sprite_inside h)
  exact ⟨_, hdraw, rfl, State.reg_setReg_same _ _ _, rfl,
    fun _ hk => execDrw_reg_ne hdraw (List.ne_of_not_mem_cons hk),
    (((withFb_keeps s _).trans (State.setReg_keeps _ _ _)).trans (State.charge_keeps _ _)).1⟩

/-- Settles O45: DRW draws the rows of its sprite, each pixel meets at most one sprite bit, and the flag is
the collision of the rows drawn. -/
theorem drawIsPixelwiseXor : Obligations.DrawIsPixelwiseXor := by
  intro x y n s hin
  have hn : n.toNat ≤ 32 := by omega
  obtain ⟨t, hexec, hfb, hflag, hrest⟩ := execDrw_next x y hin
  refine ⟨t, hexec, fun row hrow j hj => ?_, fun c hc r hr huncovered => ?_, ?_, ?_, hrest⟩
  · rw [hfb, pixel_drawRows _ _ _ _ hn (Nat.mod_lt _ (by decide)) (Nat.mod_lt _ (by decide))]
    exact congrArg _ (spriteBit_at _ _ _ hn hrow hj)
  · rw [hfb, pixel_drawRows _ _ _ _ hn hc hr, spriteBit_uncovered _ hc hr huncovered, Bool.xor_false]
  · exact hflag ▸ flagByte_zero_or_one _
  · exact (iff_of_eq (congrArg (· = 1#8) hflag)).trans
      ((flagByte_eq_one_iff _).trans (drawRows_hit _ _ _ _ hn))

/-- The framebuffer is its pixels. -/
theorem Framebuffer.ext_pixel {fb fb' : Framebuffer} (h : ∀ c < 64, ∀ r < 32, pixel fb c r = pixel fb' c r) :
    fb = fb' := by
  refine Vector.ext fun j hj => BitVec.eq_of_getLsbD_eq fun k hk => ?_
  have hbit := h (j % 8 * 8 + (7 - k)) (by omega) (j / 8) (by omega)
  unfold pixel fbByte at hbit
  rw [show j / 8 * 8 + (j % 8 * 8 + (7 - k)) / 8 = j by omega,
    show 7 - (j % 8 * 8 + (7 - k)) % 8 = k by omega] at hbit
  simpa [Vector.getD, hj] using hbit

/-- Settles O46: by `drawIsPixelwiseXor` for both draws, a pixel under a sprite bit flips twice and every other
pixel never; under a set bit, a pixel is set for the second draw exactly when it was not for the first. -/
theorem drawTwiceRestoresFramebuffer : Obligations.DrawTwiceRestoresFramebuffer := by
  intro x y n s hin
  obtain ⟨t, hexec, hflip, hkeep, -, -, -, hregs, hsame⟩ := drawIsPixelwiseXor x y n s hin
  refine ⟨t, hexec, hregs, fun x' y' hx hy => ?_⟩
  have hi : t.i = s.i := hsame .i (by decide)
  have hmem : ∀ a, t.mem.read a = s.mem.read a := hsame .mem (by decide)
  have hcol : ∀ j, ((t.reg x').toNat + j) % 64 = ((s.reg x).toNat + j) % 64 := fun _ => Nat.ModEq.add_right _ hx
  have hrow : ∀ row, ((t.reg y').toNat + row) % 32 = ((s.reg y).toNat + row) % 32 :=
    fun _ => Nat.ModEq.add_right _ hy
  obtain ⟨u, hexec', hflip', hkeep', -, hhit, -⟩ := drawIsPixelwiseXor x' y' n t (hi ▸ hin)
  simp only [hcol, hrow, hi, hmem] at hflip' hkeep' hhit
  refine ⟨u, hexec', Framebuffer.ext_pixel fun c hc r hr => ?_, hhit.trans ?_⟩
  · by_cases hcovered : ∃ row < n.toNat, ∃ j < 8,
        c = ((s.reg x).toNat + j) % 64 ∧ r = ((s.reg y).toNat + row) % 32
    · obtain ⟨row, hlt, j, hj, rfl, rfl⟩ := hcovered
      rw [hflip' row hlt j hj, hflip row hlt j hj, Bool.xor_assoc, Bool.xor_self, Bool.xor_false]
    · have huncovered : ∀ row < n.toNat, ∀ j < 8,
          ¬ (c = ((s.reg x).toNat + j) % 64 ∧ r = ((s.reg y).toNat + row) % 32) :=
        fun row hlt j hj h => hcovered ⟨row, hlt, j, hj, h⟩
      rw [hkeep' c hc r hr huncovered, hkeep c hc r hr huncovered]
  · refine exists_congr fun row => and_congr_right fun hlt => exists_congr fun j =>
      and_congr_right fun hj => and_congr_right fun hbit => ?_
    rw [hflip row hlt j hj, hbit, Bool.xor_true, Bool.not_eq_true']

end Sys2Proof.Machine

/-! SUPPORT. One step of the frame driver (49_frame_driver.md R190 to R193): the start of a frame, and the three
ways an instruction step goes, by the fetch and the decode. -/

namespace Sys2Proof.Machine

theorem SameBut.trans {ps qs : List Part} {s t u : State} (h : SameBut ps s t) (h' : SameBut qs t u) :
    SameBut (ps ++ qs) s u := by
  intro p hp
  rw [List.mem_append, not_or] at hp
  exact Part.same_trans (h p hp.1) (h' p hp.2)

/-! ## The instruction step, beside `instructionStep_of_decode` -/

/-- No word lies at `pc`: the fault comes before `pc` moves (60_exceptions.md R203, R211). -/
theorem instructionStep_outside {s : State} (hpc : 4095 ≤ s.pc.toNat) :
    instructionStep s = raise (.outOfBounds s.pc) s := by
  rw [instructionStep, fetchDecode_eq, if_pos hpc]

/-- The word at `pc` does not decode: the fault comes after `pc` has moved (60_exceptions.md R202, R211). -/
theorem instructionStep_of_invalid {s : State} (hpc : s.pc.toNat ≤ 4094)
    (hd : decode (s.mem.read s.pc.toNat ++ s.mem.read (s.pc.toNat + 1)) = none) :
    instructionStep s =
      raise (.invalidOpcode (s.mem.read s.pc.toNat ++ s.mem.read (s.pc.toNat + 1)))
        (s.setPc (s.pc + 2#16)) := by
  simp only [instructionStep, fetchDecode, fetch_inside hpc, hd]

/-- Only a machine that has not faulted answers a next state. -/
theorem running_of_step {s t : State} (h : step s = .next t) : s.fault = none := by
  cases hf : s.fault with
  | none => rfl
  | some f => simp [step, hf] at h

/-! ## The obligations -/

/-- Settles O9: the start of a frame changes neither `pc` nor memory, so the word fetched after it is that
of `s`. -/
theorem stepRunsDecodedInstruction : Obligations.StepRunsDecodedInstruction := fun s _ hf hpc _ hd =>
  (step_running hf).trans (instructionStep_of_decode (s := s.enterFrame) hpc hd)

/-- Settles O10: the step moves `pc` and then takes the fault. -/
theorem stepOnInvalidWordRaises : Obligations.StepOnInvalidWordRaises := by
  intro s hf hpc hd
  obtain ⟨t, hraise, hfault, hbudget, hsame⟩ :=
    raise_next (.invalidOpcode (s.mem.read s.pc.toNat ++ s.mem.read (s.pc.toNat + 1)))
      (s.enterFrame.setPc (s.pc + 2#16))
  have hstep := (step_running hf).trans (instructionStep_of_invalid (s := s.enterFrame) hpc hd)
  exact ⟨t, hstep.trans hraise, hfault, hsame .pc (by decide), hbudget,
    (s.enterFrame.setPc_keeps _).1.trans hsame⟩

/-- Settles O11: the step is the fault and, before it, the start of a frame that is due. -/
theorem stepPastMemoryRaisesOutOfBounds : Obligations.StepPastMemoryRaisesOutOfBounds := by
  intro s hf hpc
  obtain ⟨t, hraise, ht⟩ := raise_next (.outOfBounds s.pc) s.enterFrame
  have hstep := (step_running hf).trans (instructionStep_outside (s := s.enterFrame) hpc)
  exact ⟨t, hstep.trans hraise, ht⟩

/-- Settles O12: the step looks at the fault status first. -/
theorem haltedMachineAnswersItsFault : Obligations.HaltedMachineAnswersItsFault := by
  intro s f hf
  rw [step, hf]

theorem State.enterFrame_sameBut {s : State} (h : s.budget ≤ 0) :
    SameBut [.dt, .st, .budget, .keys, .frames] s s.enterFrame := by
  rw [State.enterFrame_due h]
  intro p hp
  cases p <;> simp [Part.same, State.reg] at hp ⊢

/-- Settles O13: a frame start is one update in which both timers tick; in the middle of a frame it is none. -/
theorem frameStartTicksBothTimers : Obligations.FrameStartTicksBothTimers := by
  refine fun s => ⟨fun h => ?_, State.enterFrame_notDue⟩
  have hsame := State.enterFrame_sameBut h
  rw [State.enterFrame_due h] at hsame ⊢
  exact ⟨toNat_tick s.dt, toNat_tick s.st, rfl, rfl, rfl, hsame⟩

end Sys2Proof.Machine

/-! SUPPORT. A frame ends (49_frame_driver.md R190, R196): every step keeps the key mask and the frame count, and
either lowers the budget or faults, so the budget bounds the steps. -/

namespace Sys2Proof.Machine

/-- What an instruction does to the frame it runs in: the mask stays, no frame starts, and it either lowers the
budget and leaves the fault status, or faults and leaves no budget. -/
structure WithinFrame (s t : State) : Prop where
  keys : t.keys = s.keys
  frames : t.frames = s.frames
  spends : (t.budget ≤ s.budget - 1 ∧ t.fault = s.fault) ∨ (t.fault ≠ none ∧ t.budget = 0)

theorem raise_withinFrame {f : Fault} {s t : State} (h : raise f s = .next t) : WithinFrame s t := by
  cases h
  exact ⟨rfl, rfl, .inr ⟨Option.some_ne_none f, rfl⟩⟩

/-- The parts that belong to the frame are written by no instruction, payment and fault apart. -/
theorem notMem_partsWritten (i : Instr) : ∀ p ∈ [Part.keys, .frames, .budget, .fault], p ∉ partsWritten i := by
  cases i <;> simp [partsWritten]

theorem exec_withinFrame {i : Instr} {s t : State} (h : exec i s = .next t) : WithinFrame s t := by
  cases exec_faultsOrPays h with
  | faults f hf => exact raise_withinFrame hf
  | pays u c hu hc ht =>
    have hkept (p : Part) (hp : p ∈ [.keys, .frames, .budget, .fault]) : p.same s u :=
      hu.1 p (notMem_partsWritten i p hp)
    have hkeys : u.keys = s.keys := hkept .keys (by simp)
    have hframes : u.frames = s.frames := hkept .frames (by simp)
    have hbudget : u.budget = s.budget := hkept .budget (by simp)
    have hfault : u.fault = s.fault := hkept .fault (by simp)
    subst ht
    refine ⟨hkeys, hframes, .inl ⟨?_, hfault⟩⟩
    rw [State.charge_budget, hbudget]
    omega

/-- The fetch moves `pc` alone, which is no part of the frame. -/
theorem WithinFrame.of_setPc {s t : State} {v : Word} (h : WithinFrame (s.setPc v) t) : WithinFrame s t :=
  ⟨h.keys, h.frames, h.spends⟩

theorem instructionStep_withinFrame {s t : State} (h : instructionStep s = .next t) : WithinFrame s t := by
  rcases Nat.lt_or_ge s.pc.toNat 4095 with hin | hout
  · cases hd : decode (s.mem.read s.pc.toNat ++ s.mem.read (s.pc.toNat + 1)) with
    | none => exact (raise_withinFrame (instructionStep_of_invalid (by omega) hd ▸ h)).of_setPc
    | some i => exact (exec_withinFrame (instructionStep_of_decode (by omega) hd ▸ h)).of_setPc
  · exact raise_withinFrame (instructionStep_outside hout ▸ h)

theorem step_withinFrame {s t : State} (h : step s = .next t) : WithinFrame s.enterFrame t :=
  instructionStep_withinFrame (step_running (running_of_step h) ▸ h)

/-- As many steps as there is budget end the frame, and the frame is the one its first step entered. -/
theorem frameLoop_ends {n : Nat} {s : State} (hf : s.fault = none) (hn : s.enterFrame.budget ≤ n) :
    ∃ t, frameLoop n s = .next t ∧ t.budget ≤ 0 ∧ t.frames = s.enterFrame.frames ∧
      t.keys = s.enterFrame.keys := by
  induction n generalizing s with
  | zero => exact absurd s.enterFrame_budget_pos (Int.not_lt.2 hn)
  | succ n ih =>
    obtain ⟨u, hstep⟩ := step_next hf
    obtain ⟨hkeys, hframes, hspends⟩ := step_withinFrame hstep
    rw [frameLoop_succ n hstep]
    by_cases hover : u.budget ≤ 0
    · exact ⟨u, if_pos hover, hover, hframes, hkeys⟩
    · have hmid : u.enterFrame = u := State.enterFrame_notDue (Int.not_le.1 hover)
      obtain ⟨hless, hfault⟩ := hspends.resolve_right fun hfaulted => hover hfaulted.2.le
      obtain ⟨t, hloop, ht, htframes, htkeys⟩ := ih (hfault.trans hf) (by rw [hmid]; omega)
      rw [hmid] at htframes htkeys
      exact ⟨t, (if_neg hover).trans hloop, ht, htframes.trans hframes, htkeys.trans hkeys⟩

/-- Settles O17, by induction on the steps that the budget allows: a step that leaves budget has not faulted
and has lowered it. -/
theorem frameAlwaysReturns : Obligations.FrameAlwaysReturns := by
  refine ⟨fun s hf hs => ?_, fun s t h hs => ?_, fun s t h hs => ?_⟩
  · have hwhole : s.enterFrame.budget ≤ frameBudget := by rw [State.enterFrame_due hs]
    obtain ⟨t, hloop, ht, hframes, hkeys⟩ := frameLoop_ends hf hwhole
    rw [State.enterFrame_due hs] at hframes hkeys
    exact ⟨t, hloop, ht, hframes, hkeys⟩
  · obtain ⟨hkeys, hframes, -⟩ := step_withinFrame h
    rw [State.enterFrame_due hs] at hkeys hframes
    exact ⟨hkeys, hframes⟩
  · obtain ⟨hkeys, hframes, -⟩ := step_withinFrame h
    rw [State.enterFrame_notDue hs] at hkeys hframes
    exact ⟨hkeys, hframes⟩

/-- Settles O59: every instruction spends within its frame. -/
theorem everyInstructionCostsAtLeastOne : Obligations.EveryInstructionCostsAtLeastOne := fun _ _ _ h =>
  (exec_withinFrame h).spends.imp_left And.left

end Sys2Proof.Machine

/-! SUPPORT. The budget is not read (49_frame_driver.md R195): an instruction does the same with another one. -/

namespace Sys2Proof.Machine

theorem exec_carries_st {i : Instr} {s t : State} (h : exec i s = .next t) :
    (if .st ∈ partsWritten i then t.st else s.st) = t.st :=
  ite_eq_left_iff.2 fun hw => (exec_sameBut h .st (by simpa using hw)).symm

theorem exec_carries_fb {i : Instr} {s t : State} (h : exec i s = .next t) :
    (if .fb ∈ partsWritten i then t.fb else s.fb) = t.fb :=
  ite_eq_left_iff.2 fun hw => (exec_sameBut h .fb (by simpa using hw)).symm

/-- Settles O57, by `exec_setOutputs` with the sound timer and the framebuffer of `s`: what the instruction does
not write of them, it carries over. -/
theorem valuesDoNotDependOnBudget : Obligations.ValuesDoNotDependOnBudget := by
  intro i s t b h
  obtain ⟨c, hc⟩ := exec_setOutputs s.st b h (.inl rfl)
  rw [exec_carries_st h, exec_carries_fb h] at hc
  exact ⟨c, hc⟩

end Sys2Proof.Machine

/-! SUPPORT. The timers, the key-wait and SYS (47_timers_keywait.md R170 to R173, 48_system.md R180), by what a
write of one result and a fault do. -/

namespace Sys2Proof.Machine

/-- Settles O47: LD Vx, DT is a write of one result; the two others are one write of a timer and a payment. -/
theorem timerTransfers : Obligations.TimerTransfers := fun x s =>
  ⟨writeResult_next (.ldVxDt x) x s.dt s,
    ⟨_, rfl, rfl, rfl, ((withDt_keeps s _).trans (State.charge_keeps _ _)).1⟩,
    ⟨_, rfl, rfl, rfl, ((withSt_keeps s _).trans (State.charge_keeps _ _)).1⟩⟩

/-- With a key held the key-wait is a write of the least key's number. -/
theorem execLdVxK_held {x : RegIdx} {s : State} (h : s.keys ≠ 0#16) :
    execLdVxK x s = writeResult (.ldVxK x) x (BitVec.ofNat 8 (lowestKey s.keys)) s := by
  rw [execLdVxK, if_neg h, writeResult]

/-- With no key held the key-wait goes back to its own address and pays a whole frame. -/
theorem execLdVxK_none {x : RegIdx} {s : State} (h : s.keys = 0#16) :
    execLdVxK x s = .next ((s.setPc (s.pc - 2#16)).charge keyWaitCost) := by
  rw [execLdVxK, if_pos h]

/-- Settles O48: the least key is below 16, so its number fits the register; the cost of waiting is at least
what any frame has left. -/
theorem keyWaitLoadsLeastKeyOrRepeats : Obligations.KeyWaitLoadsLeastKeyOrRepeats := by
  refine fun x s => ⟨fun hkeys => ?_, fun hkeys => ?_⟩
  · obtain ⟨t, hexec, hreg, hrest⟩ :=
      writeResult_next (.ldVxK x) x (BitVec.ofNat 8 (lowestKey s.keys)) s
    obtain ⟨hheld, hleast⟩ := lowestKey_spec hkeys
    have hlt := lowestKey_lt s.keys
    exact ⟨t, (execLdVxK_held hkeys).trans hexec,
      ⟨_, hlt, hheld, hleast, hreg ▸ toNat_ofNat_byte (by omega)⟩, hrest⟩
  · exact ⟨_, execLdVxK_none hkeys, rfl, rfl, fun hs => Int.sub_nonpos_of_le hs,
      ((s.setPc_keeps _).trans (State.charge_keeps _ _)).1⟩

/-- Settles O49: SYS is the fault and nothing else. -/
theorem sysRaisesInvalidOpcode : Obligations.SysRaisesInvalidOpcode := fun nnn s =>
  raise_next (.invalidOpcode (0x0#4 ++ nnn)) s

end Sys2Proof.Machine

/-! SUPPORT. What does not fit: a transfer past memory (60_exceptions.md R206) and a program past its place
(49_frame_driver.md R198, 60_exceptions.md R201). -/

namespace Sys2Proof.Machine

theorem State.readBytes_atIndex_outside (s : State) {n : Nat} (hn : n ≠ 0) (h : 4096 < s.i.toNat + n) :
    s.readBytes (s.indexAddr 0) n = .error (.memoryOutOfRange (max s.i.toNat memSize)) := by
  rw [State.readBytes_eq, State.indexAddr, Nat.add_zero, memSize, if_neg (by omega)]

/-- Settles O42: two of the four transfers are a store at `I` and two a read at `I`; where it leaves memory,
each is the fault at its first address above 4095. -/
theorem transferPastMemoryRaises : Obligations.TransferPastMemoryRaises := by
  intro i s h
  have hexec : exec i s = raise (.memoryOutOfRange (max s.i.toNat memSize)) s := by
    rcases h with ⟨x, rfl, hout⟩ | ⟨x, rfl | rfl, hout⟩ | ⟨x, y, n, rfl, hn, hout⟩
    · refine storeAtIndex_outside (List.cons_ne_nil _ _) ?_
      rw [length_decimalDigits, memSize]
      omega
    · refine storeAtIndex_outside (List.ne_nil_of_length_pos (by simp)) ?_
      rw [State.length_regsUpTo, memSize]
      omega
    · exact execLdVxMem_raises (s.readBytes_atIndex_outside (Nat.succ_ne_zero _) (by omega))
    · exact execDrw_raises (s.readBytes_atIndex_outside (by omega) (by omega))
  obtain ⟨t, hraise, ht⟩ := raise_next (.memoryOutOfRange (max s.i.toNat memSize)) s
  exact ⟨t, hexec.trans hraise, ht⟩

/-- Settles O19: 512 and 3584 make 4096, so a program that is accepted lies in memory; the load writes it there
and nothing else. -/
theorem loadProgramCopiesOrFails : Obligations.LoadProgramCopiesOrFails := by
  refine fun bytes s hm => ⟨fun hlen => ?_, fun hlen => if_neg (Nat.not_le.2 hlen)⟩
  have hfit : 512 + bytes.length ≤ memSize := by
    rw [memSize]
    omega
  exact ⟨_, if_pos hlen, fun _ hj => Memory.read_load_inside hm bytes hfit hj,
    fun _ hb => Memory.read_load_outside s.mem bytes hb, (withMem_keeps s _).1⟩

end Sys2Proof.Machine
